-- ==== Sys2Proof/Word.lean ====
section
/-! DEFINITION. The word types of the block (spec/00_scope.md R5, R7): all values are unsigned and of a stated width. -/

namespace Sys2Proof

/-- A byte, 8 bits (R7). -/
abbrev Byte := BitVec 8

/-- A word, 32 bits (R7; WORD_BITS of R5). -/
abbrev Word := BitVec 32

/-- The width of `totalBits` and of the length suffix, 64 bits (COUNTER_BITS of R5). -/
abbrev Word64 := BitVec 64

/-- A command word `cmd[9:0]` (CMD_BITS of R5, format CMD10 of R83). -/
abbrev CommandWord := BitVec 10

end Sys2Proof
end

