-- ==== Sys2Proof/Syntax.lean ====
section
/-! DEFINITION. The command set: one constructor for each row of spec/opcode_table.json (spec/30_encoding.md R83). -/

namespace Sys2Proof

/-- The four rows of the opcode map (R83). Each keeps the whole `data` field of its word, so that decoding drops no bit;
only ABSORB reads it (R84, R85; log 6). -/
inductive Instr where
  /-- INIT, `op` = 00: begin a session (R161); `data` is ignored. -/
  | init (data : Byte)
  /-- ABSORB b, `op` = 01: take in the byte b (R162). -/
  | absorb (b : Byte)
  /-- FINAL, `op` = 10: pad, compress, serialize, end the session (R164); `data` is ignored. -/
  | final (data : Byte)
  /-- The reserved encoding, `op` = 11: raises IllegalCommand (R193); `data` is ignored. -/
  | rsvd (data : Byte)
deriving DecidableEq, Repr

end Sys2Proof
end

