-- ==== Sys2Proof/WellFormed.lean ====
section
/-! DEFINITION. Well-formedness of commands and of the numbers that stand for command words (spec/30_encoding.md R83 to
R85). The operand of every constructor is a byte by its type, and all 256 values are legal, so no `Instr` is ill-formed;
what can be ill-formed is a number offered as a command word, and what can be non-canonical is an ignored `data` field. -/

namespace Sys2Proof

/-- A number is a command word when it fits the 10 bits of CMD10 (R83). -/
def commandWordFits (w : Nat) : Bool := w < 2 ^ 10

/-- Every command is well-formed: "All 256 values are legal input bytes" (R84), and for INIT and FINAL "all 256 values of
cmd[7:0] select the same command" (R85 b). -/
def Instr.wf : Instr → Bool
  | .init _ => true
  | .absorb _ => true
  | .final _ => true
  | .rsvd _ => true

/-- The canonical spelling of a command (R85 b, R87): INIT = 0x000, FINAL = 0x200, RSVD = 0x300 have `data` = 0x00. -/
def Instr.canonical : Instr → Bool
  | .init d => d == 0
  | .absorb _ => true
  | .final d => d == 0
  | .rsvd d => d == 0

end Sys2Proof
end

