-- ==== Sys2Proof/Decode.lean ====
section
/-! DEFINITION. Decoding and encoding of command words, from the opcode map of spec/30_encoding.md R83. Every one of the
1024 words decodes (spec/95_test_vectors.md V31); a number that does not fit 10 bits is rejected by name. -/

namespace Sys2Proof

/-- `op` = `cmd[9:8]` (R83). -/
def opField (w : CommandWord) : BitVec 2 := w.extractLsb' 8 2

/-- `data` = `cmd[7:0]`, taken verbatim (R83, R84). -/
def dataField (w : CommandWord) : Byte := w.extractLsb' 0 8

/-- One row of the opcode map: its name, `match` and `mask` columns (R83). -/
structure OpcodeRow where
  mnemonic : String
  pattern : CommandWord
  mask : CommandWord
deriving DecidableEq, Repr

/-- The opcode map, complete (R83). -/
def opcodeRows : List OpcodeRow :=
  [⟨"INIT", 0x000, 0x300⟩, ⟨"ABSORB", 0x100, 0x300⟩, ⟨"FINAL", 0x200, 0x300⟩, ⟨"RSVD", 0x300, 0x300⟩]

/-- "A word w selects the row with (w & mask) == match" (R83). -/
def OpcodeRow.selects (r : OpcodeRow) (w : CommandWord) : Bool := w &&& r.mask == r.pattern

/-- Decoding of a command word (R83): total, since the four values of `op` are all accounted for. -/
def decode (w : CommandWord) : Instr :=
  if w &&& 0x300 = 0x000 then .init (dataField w)
  else if w &&& 0x300 = 0x100 then .absorb (dataField w)
  else if w &&& 0x300 = 0x200 then .final (dataField w)
  else .rsvd (dataField w)

/-- Why a number is no command. -/
inductive DecodeError where
  /-- The number does not fit the 10 bits of a command word (R83). -/
  | notACommandWord (w : Nat)
deriving DecidableEq, Repr

/-- Decoding of any number: what does not fit a command word is rejected by name. -/
def decodeNat (w : Nat) : Except DecodeError Instr :=
  if commandWordFits w then .ok (decode (BitVec.ofNat 10 w)) else .error (.notACommandWord w)

/-- The word of a command: `cmd[9:0]` = {`op`, `data`} (R83). -/
def encode : Instr → CommandWord
  | .init d => (0b00#2 ++ d : BitVec (2 + 8))
  | .absorb b => (0b01#2 ++ b : BitVec (2 + 8))
  | .final d => (0b10#2 ++ d : BitVec (2 + 8))
  | .rsvd d => (0b11#2 ++ d : BitVec (2 + 8))

/-- The row of the opcode map a command belongs to, by its `mnemonic` column (R83). -/
def Instr.mnemonic : Instr → String
  | .init _ => "INIT"
  | .absorb _ => "ABSORB"
  | .final _ => "FINAL"
  | .rsvd _ => "RSVD"

/-- The command the decoder reads from an instruction of `nbits` bits, numbered as spec/opcode_table.json numbers them
(log 11): the low `nbits` bits of `w`, the bits above being 0. -/
def decodeTableWord (nbits w : Nat) : Option Instr :=
  match decodeNat (w % 2 ^ nbits) with
  | .ok i => some i
  | .error _ => none

end Sys2Proof
end

