-- ==== Sys2Proof/Machine/Operands.lean ====
section
/-! DEFINITION. Byte packing (spec/41_primitives.md R120 to R122): every multi-byte quantity is big-endian
(spec/20_memory.md R51 to R54). These are the only places where bytes meet wider values. -/

namespace Sys2Proof.Machine

/-- `be32_pack(b0, b1, b2, b3)` = {b0, b1, b2, b3}: the byte at the lowest index is the most significant (R120). -/
def be32Pack (b0 b1 b2 b3 : Byte) : Word := b0 ++ b1 ++ b2 ++ b3

/-- `be32_unpack(w)`: the four bytes of a word, most significant first (R121). -/
def be32Unpack (w : Word) : List Byte :=
  [w.extractLsb' 24 8, w.extractLsb' 16 8, w.extractLsb' 8 8, w.extractLsb' 0 8]

/-- `be64_unpack(v)`: the eight bytes of a 64-bit value, most significant first (R122). -/
def be64Unpack (v : Word64) : List Byte :=
  [v.extractLsb' 56 8, v.extractLsb' 48 8, v.extractLsb' 40 8, v.extractLsb' 32 8,
   v.extractLsb' 24 8, v.extractLsb' 16 8, v.extractLsb' 8 8, v.extractLsb' 0 8]

end Sys2Proof.Machine
end

