-- ==== Sys2Proof/Machine/Primitives.lean ====
section
/-! DEFINITION. Word arithmetic, the six round functions and the counter addition (spec/41_primitives.md R110 to R119,
R123). All are pure and total. -/

namespace Sys2Proof.Machine

/-- `add32(x, y)`: addition modulo 2^32, the carry discarded (R110). -/
def add32 (x y : Word) : Word := x + y

/-- `rotr(x, n)`: circular right rotation of the 32-bit word (R111). The design uses n in 1..31; outside that the amount
is taken mod 32, as R111 suggests (log 10). -/
def rotr (x : Word) (n : Nat) : Word := (x >>> (n % 32)) ||| (x <<< (32 - n % 32))

/-- `shr(x, n)`: logical right shift with zero fill (R112). -/
def shr (x : Word) (n : Nat) : Word := x >>> n

/-- `Ch(x, y, z)` = (x ∧ y) ⊕ (¬x ∧ z) (R114, with the operators of R113). -/
def ch (x y z : Word) : Word := (x &&& y) ^^^ (~~~x &&& z)

/-- `Maj(x, y, z)` = (x ∧ y) ⊕ (x ∧ z) ⊕ (y ∧ z) (R115). -/
def maj (x y z : Word) : Word := (x &&& y) ^^^ (x &&& z) ^^^ (y &&& z)

/-- Σ0, `BSIG0` (R116). -/
def bsig0 (x : Word) : Word := rotr x 2 ^^^ rotr x 13 ^^^ rotr x 22

/-- Σ1, `BSIG1` (R117). -/
def bsig1 (x : Word) : Word := rotr x 6 ^^^ rotr x 11 ^^^ rotr x 25

/-- σ0, `SSIG0`: the third term is a shift (R118). -/
def ssig0 (x : Word) : Word := rotr x 7 ^^^ rotr x 18 ^^^ shr x 3

/-- σ1, `SSIG1`: the third term is a shift (R119). -/
def ssig1 (x : Word) : Word := rotr x 17 ^^^ rotr x 19 ^^^ shr x 10

/-- `add64(x, y)`: the addition used on `totalBits`, in its wrapping form; in every run without a fault the exact sum is
below 2^64 (R123; log 9). -/
def add64 (x y : Word64) : Word64 := x + y

/-- `8 × n` for n = `bufferLen`, at most 504 (R123, R151). -/
def tailBits (n : BitVec 6) : Word64 := 8 * n.setWidth 64

end Sys2Proof.Machine
end

