-- ==== Sys2Proof/Machine/Compressor.lean ====
section
/-! DEFINITION. The Compressor (spec/42_compressor.md R130 to R136): message-schedule expansion and the 64-round mixing,
as a pure function from eight words and one block to eight words. A block is a list of 64 bytes; the machine never calls
these functions with another length (log 12). -/

namespace Sys2Proof.Machine

/-- SCHEDULE, words 0 to 15: read from the block as big-endian words (R131). -/
def blockWords (B : List Byte) : List Word :=
  (List.range 16).map fun t =>
    be32Pack (B.getD (4 * t) 0) (B.getD (4 * t + 1) 0) (B.getD (4 * t + 2) 0) (B.getD (4 * t + 3) 0)

/-- The schedule word that follows the words W[0..t-1]: σ1(W[t-2]) + W[t-7] + σ0(W[t-15]) + W[t-16] (R132). -/
def nextScheduleWord (W : List Word) : Word :=
  add32 (add32 (add32 (ssig1 (W.getD (W.length - 2) 0)) (W.getD (W.length - 7) 0))
    (ssig0 (W.getD (W.length - 15) 0))) (W.getD (W.length - 16) 0)

/-- `k` further words of the schedule, in increasing t (R132). -/
def extendSchedule : Nat → List Word → List Word
  | 0, W => W
  | k + 1, W => extendSchedule k (W ++ [nextScheduleWord W])

/-- SCHEDULE: W[0..63] of a block (R131, R132). -/
def schedule (B : List Byte) : List Word := extendSchedule 48 (blockWords B)

/-- The eight working variables (R29, R133), locals of COMPRESS. -/
structure Working where
  a : Word
  b : Word
  c : Word
  d : Word
  e : Word
  f : Word
  g : Word
  h : Word
deriving DecidableEq, Repr

/-- The working variables take the state words in index order (R133). -/
def workingOf (S : Vector Word 8) : Working := ⟨S[0], S[1], S[2], S[3], S[4], S[5], S[6], S[7]⟩

/-- T1 = h + Σ1(e) + Ch(e, f, g) + K[t] + W[t] (R134). -/
def roundT1 (v : Working) (k w : Word) : Word :=
  add32 (add32 (add32 (add32 v.h (bsig1 v.e)) (ch v.e v.f v.g)) k) w

/-- T2 = Σ0(a) + Maj(a, b, c) (R134). -/
def roundT2 (v : Working) : Word := add32 (bsig0 v.a) (maj v.a v.b v.c)

/-- ROUND with the constant `k` = K[t] and the schedule word `w` = W[t]; the assignment is simultaneous (R134). -/
def round (v : Working) (k w : Word) : Working where
  a := add32 (roundT1 v k w) (roundT2 v)
  b := v.a
  c := v.b
  d := v.c
  e := add32 v.d (roundT1 v k w)
  f := v.e
  g := v.f
  h := v.g

/-- The rounds over paired constants and schedule words, in increasing t, each on the output of the one before (R134). -/
def rounds (v : Working) (kw : List (Word × Word)) : Working := kw.foldl (fun v p => round v p.1 p.2) v

/-- Feed-forward: add the final a..h to the state words from before round 0 (R135). -/
def feedForward (S : Vector Word 8) (v : Working) : Vector Word 8 :=
  #v[add32 S[0] v.a, add32 S[1] v.b, add32 S[2] v.c, add32 S[3] v.d,
     add32 S[4] v.e, add32 S[5] v.f, add32 S[6] v.g, add32 S[7] v.h]

/-- COMPRESS(S, B) (R136). -/
def compress (S : Vector Word 8) (B : List Byte) : Vector Word 8 :=
  feedForward S (rounds (workingOf S) (kTable.zip (schedule B)))

end Sys2Proof.Machine
end

