-- ==== Sys2Proof/Machine/Serializer.lean ====
section
/-! DEFINITION. The Serializer, the digest port and the text rendering (spec/45_serializer.md R180 to R182). -/

namespace Sys2Proof.Machine

/-- SERIALIZE(S): D[j] = S[⌊j / 4⌋][31 - 8 (j mod 4) : 24 - 8 (j mod 4)] (R180). -/
def serialize (S : Vector Word 8) : Vector Byte 32 :=
  Vector.ofFn fun j => (S[j.val / 4]'(by omega)).extractLsb' (24 - 8 * (j.val % 4)) 8

/-- The 256 bits of the digest port: `digest[j]` at bits [255 - 8j : 248 - 8j], byte 0 at the top (R181). -/
def digestBits (d : Vector Byte 32) : BitVec 256 :=
  d.toList.foldl (fun acc b => (acc <<< 8) ||| b.setWidth 256) 0

/-- A hex digit, letters in lower case (R182). -/
def hexDigit (x : BitVec 4) : Char :=
  ['0', '1', '2', '3', '4', '5', '6', '7', '8', '9', 'a', 'b', 'c', 'd', 'e', 'f'].getD x.toNat '0'

/-- The conventional rendering: two hex digits for each byte, high digit first, in the Serializer's byte order (R182).
It is done by the host, not by the block. -/
def renderHex (d : Vector Byte 32) : List Char :=
  d.toList.flatMap fun b => [hexDigit (b.extractLsb' 4 4), hexDigit (b.extractLsb' 0 4)]

end Sys2Proof.Machine
end

