-- ==== Sys2Proof/Config.lean ====
section
/-! DEFINITION. The implementation parameters of spec/00_scope.md R5. None is configurable at run time, so each is a
named constant; the one value the spec leaves open is an uninterpreted constant. Laws/Parameters.lean proves that the
definitions of the machine have these sizes. -/

namespace Sys2Proof

/-- WORD_BITS (R5): width of a state word, schedule word, round constant and working variable. -/
abbrev Config.wordBits : Nat := 32
/-- STATE_WORDS (R5): number of words in `words`. -/
abbrev Config.stateWords : Nat := 8
/-- BLOCK_BYTES (R5): capacity of `buffer`, size of one block. -/
abbrev Config.blockBytes : Nat := 64
/-- BLOCK_BITS (R5): what `totalBits` advances by for each block. -/
abbrev Config.blockBits : Nat := 512
/-- BLOCK_WORDS (R5): 32-bit words read from one block. -/
abbrev Config.blockWords : Nat := 16
/-- ROUNDS (R5): rounds for each block. -/
abbrev Config.rounds : Nat := 64
/-- SCHEDULE_WORDS (R5): words in the message schedule. -/
abbrev Config.scheduleWords : Nat := 64
/-- K_WORDS (R5): round constants in the ROM. -/
abbrev Config.kWords : Nat := 64
/-- IV_WORDS (R5): initial hash words in the ROM. -/
abbrev Config.ivWords : Nat := 8
/-- COUNTER_BITS (R5): width of `totalBits`. -/
abbrev Config.counterBits : Nat := 64
/-- LEN_OFFSET (R5): buffer index at which the length suffix starts. -/
abbrev Config.lenOffset : Nat := 56
/-- LEN_BYTES (R5): bytes of the length suffix. -/
abbrev Config.lenBytes : Nat := 8
/-- PAD_BYTE (R5): the domain-separation byte. -/
abbrev Config.padByte : Byte := 0x80
/-- DIGEST_BYTES (R5): bytes of the digest. -/
abbrev Config.digestBytes : Nat := 32
/-- MAX_MESSAGE_BITS (R5, R194): the largest message length the block accepts, 2^61 - 1 bytes. -/
abbrev Config.maxMessageBits : Nat := 2 ^ 64 - 8
/-- N_SESSIONS (R5): HashState instances in one block. -/
abbrev Config.nSessions : Nat := 1
/-- CMD_BITS (R5): width of the command word. -/
abbrev Config.cmdBits : Nat := 10

/-- BUSY_CYCLES (R5, R231, decision D22): how many clock cycles a command keeps `cmd_ready` low, a function of the
operation code and of whether the command runs COMPRESS. The spec leaves it OPEN and no rule depends on it, so it has no
body and nothing in the model reads it (log 4). -/
opaque Config.busyCycles : BitVec 2 → Bool → Nat

end Sys2Proof
end

