-- ==== Sys2Proof/Machine/State.lean ====
section
/-! DEFINITION. The state of one block instance (spec/10_state.md R20), as plain data, its value after reset (R36), and
the reasons a step can stop. -/

namespace Sys2Proof.Machine

/-- The session phase (R26, R34); its 2-bit code is `Phase.code` in Machine/Flags.lean. -/
inductive Phase where
  /-- "no INIT has been accepted since reset" (R26). -/
  | uninitialized
  /-- "the last accepted command was INIT" (R26). -/
  | initialized
  /-- "at least one ABSORB has been accepted since the last INIT and no FINAL" (R26). -/
  | accepting
  /-- "the last accepted command was FINAL and `digest` holds the digest" (R26). -/
  | finalized
deriving DecidableEq, Repr

/-- The cause of the fault (R27, R191); its 2-bit code is `FaultCause.code` in Machine/Flags.lean. -/
inductive FaultCause where
  /-- No fault since reset. -/
  | none
  /-- A command word with `op` = 11 (R193). -/
  | illegalCommand
  /-- ABSORB or FINAL in phase Uninitialized or Finalized (R192). -/
  | contractViolation
  /-- The ABSORB that would take the message length to 2^64 bits (R194). -/
  | lengthOverflow
deriving DecidableEq, Repr

/-- What the input ports carry at one rising clock edge (R82). -/
structure PortInput where
  /-- `rst`: synchronous reset, active high (R220). -/
  rst : Bool
  /-- `cmd_valid`: the host presents a command word. -/
  cmdValid : Bool
  /-- `cmd_op[1:0]`, bits [9:8] of the command word. -/
  cmdOp : BitVec 2
  /-- `cmd_data[7:0]`, bits [7:0] of the command word. -/
  cmdData : Byte
deriving DecidableEq, Repr

/-- The byte memory `buffer` (R22, R50) as cells with strictly rising addresses; an address with no cell holds a byte
that nothing has written, which has no value (R36; log 2). -/
abbrev Memory := List Host.Cell

/-- The complete state of one block instance: the HashState plus the session and status registers (R20), and the samples
the host will present at the input ports. -/
structure State where
  /-- `words[0..7]`, the running digest accumulator (R21). -/
  words : Vector Word 8
  /-- `buffer[0..63]` (R22). -/
  buffer : Memory
  /-- `bufferLen`, 6 bits (R23). -/
  bufferLen : BitVec 6
  /-- `totalBits`, 64 bits (R24). -/
  totalBits : Word64
  /-- `phase` (R26). -/
  phase : Phase
  /-- `fault` (R27). -/
  fault : Bool
  /-- `fault_cause` (R27). -/
  faultCause : FaultCause
  /-- `digest[0..31]` (R28). -/
  digest : Vector Byte 32
  /-- `digest_valid` (R28). -/
  digestValid : Bool
  /-- The model's own field: the port samples still to come, oldest first (log 3). -/
  inputs : List PortInput
deriving DecidableEq, Repr

/-- Why a step stops. -/
inductive Fault where
  /-- Raised by ABSORB and FINAL when COMPRESS would read a byte of `buffer` that nothing has written. No run from reset
  reaches such a state (R37, R66), and the spec gives such a byte no value (R36). SAFE: the model stops where hardware
  would use whatever bits are there (log 2). -/
  | unwrittenByte
deriving DecidableEq, Repr

/-- Why a step has no meaning. -/
inductive Refusal where
  /-- Raised by `exec` for a command that has no meaning yet; every command of this table has one. SAFE. -/
  | notModelled (mnemonic : String)
deriving DecidableEq, Repr

/-- The state right after reset (R36, R220). `phase`, `fault`, `fault_cause` and `digest_valid` are as the spec gives
them, and `buffer` holds no byte. The spec gives `words`, `bufferLen`, `totalBits` and `digest` no value; their contents
here are the DESIGN CHOICE of log 1, and the views of Machine/Flags.lean show them as absent. -/
def State.reset : State where
  words := #v[0, 0, 0, 0, 0, 0, 0, 0]
  buffer := []
  bufferLen := 0
  totalBits := 0
  phase := .uninitialized
  fault := false
  faultCause := .none
  digest := #v[0, 0, 0, 0, 0, 0, 0, 0, 0, 0, 0, 0, 0, 0, 0, 0,
    0, 0, 0, 0, 0, 0, 0, 0, 0, 0, 0, 0, 0, 0, 0, 0]
  digestValid := false
  inputs := []

/-- How a meaning ends. -/
abbrev Outcome := Host.Outcome State Fault Refusal

end Sys2Proof.Machine
end

