-- ==== Sys2Proof/Machine/Flags.lean ====
section
/-! DEFINITION. The status registers as software sees them. There are no arithmetic flags and no condition codes
(spec/10_state.md R33); the flag-like state is `phase`, `fault`, `fault_cause` and `digest_valid` (R34). This file gives
their codes, the views in which a register that holds no value is absent (R36), and the output ports (R82). -/

namespace Sys2Proof.Machine

/-- The 2-bit code of `phase` (R26, R34). -/
def Phase.code : Phase → BitVec 2
  | .uninitialized => 0
  | .initialized => 1
  | .accepting => 2
  | .finalized => 3

/-- The 2-bit code of `fault_cause` (R27, R191). -/
def FaultCause.code : FaultCause → BitVec 2
  | .none => 0
  | .illegalCommand => 1
  | .contractViolation => 2
  | .lengthOverflow => 3

/-- The phases in which a session is open and ABSORB and FINAL are admitted (R160). -/
def Phase.inSession : Phase → Bool
  | .uninitialized => false
  | .initialized => true
  | .accepting => true
  | .finalized => false

/-- `words`, absent while it holds no value (R35 f, R36). -/
def State.words? (s : State) : Option (Vector Word 8) :=
  if s.phase = .uninitialized then none else some s.words

/-- `bufferLen`, absent while it holds no value (R35 f, R36). -/
def State.bufferLen? (s : State) : Option (BitVec 6) :=
  if s.phase = .uninitialized then none else some s.bufferLen

/-- `totalBits`, absent while it holds no value (R35 f, R36). -/
def State.totalBits? (s : State) : Option Word64 :=
  if s.phase = .uninitialized then none else some s.totalBits

/-- The digest port: meaningful only while `digest_valid` = 1 (R28, R181, R229; log 8). -/
def State.digestPort (s : State) : Option (BitVec 256) :=
  if s.digestValid then some (digestBits s.digest) else none

/-- The output ports (R82). -/
structure Ports where
  cmdReady : Bool
  phase : BitVec 2
  fault : Bool
  faultCause : BitVec 2
  digestValid : Bool
  digest : Option (BitVec 256)
deriving DecidableEq, Repr

/-- What the output ports show between two commands: the state after the last accepted command (R60 e); `cmd_ready` is 1
there, while `fault` = 1 too (R227; log 4). -/
def State.ports (s : State) : Ports where
  cmdReady := true
  phase := s.phase.code
  fault := s.fault
  faultCause := s.faultCause.code
  digestValid := s.digestValid
  digest := s.digestPort

end Sys2Proof.Machine
end

