-- ==== Sys2Proof/Machine/Ops.lean ====
section
/-! DEFINITION. The shared operations: access to the byte memory `buffer` (spec/00_scope.md R8, spec/20_memory.md R51,
R52), the named register updates, fault entry and the reset event beside it (spec/60_exceptions.md R197,
spec/70_reset_and_hazards.md R220), and the admission checks of the step function (R196). -/

namespace Sys2Proof.Machine

/-! ### The byte memory -/

/-- `MemRead(a, 1)`: the byte at an address, absent when nothing has written it (R8, R36). -/
def Memory.read : Memory → Nat → Option Byte
  | [], _ => none
  | (b, v) :: m, a => if a = b then some v else Memory.read m a

/-- `MemWrite(a, 1, v)`: write one byte, keeping the addresses rising (R8). -/
def Memory.write : Memory → Nat → Byte → Memory
  | [], a, v => [(a, v)]
  | (b, w) :: m, a, v =>
    if a < b then (a, v) :: (b, w) :: m
    else if a = b then (a, v) :: m
    else (b, w) :: Memory.write m a v

/-- Write consecutive bytes from address `a` on. -/
def Memory.writeBytes : Memory → Nat → List Byte → Memory
  | m, _, [] => m
  | m, a, v :: vs => Memory.writeBytes (Memory.write m a v) (a + 1) vs

/-- The `n` bytes from address `a` on, absent when one of them is. -/
def Memory.readBytes (m : Memory) : Nat → Nat → Option (List Byte)
  | _, 0 => some []
  | a, n + 1 =>
    match Memory.read m a, Memory.readBytes m (a + 1) n with
    | some b, some bs => some (b :: bs)
    | _, _ => none

/-- `MemRead(a, 4)`: the big-endian word of four consecutive bytes (R8, R51). -/
def Memory.read32 (m : Memory) (a : Nat) : Option Word :=
  match m.read a, m.read (a + 1), m.read (a + 2), m.read (a + 3) with
  | some b0, some b1, some b2, some b3 => some (be32Pack b0 b1 b2 b3)
  | _, _, _, _ => none

/-- `MemWrite(a, 8, v)`: eight consecutive bytes, most significant first (R8, R52). -/
def Memory.write64 (m : Memory) (a : Nat) (v : Word64) : Memory := m.writeBytes a (be64Unpack v)

/-- `for j in lo..hi: buffer[j] <- 0x00`; an empty range writes nothing (R7, R153, R154). -/
def Memory.zeroFill (m : Memory) (lo hi : Nat) : Memory := m.writeBytes lo (List.replicate (hi + 1 - lo) 0)

/-- The whole of `buffer` as one block (R130), absent when a byte has no value. -/
def Memory.block (m : Memory) : Option (List Byte) := m.readBytes 0 64

/-- The addresses of the cells are strictly rising and above `lo`, and all lie in 0..63. -/
def Memory.wfFrom : Nat → Memory → Bool
  | _, [] => true
  | lo, (a, _) :: m => decide (lo ≤ a) && decide (a < 64) && Memory.wfFrom (a + 1) m

/-- The canonical form of `buffer`: strictly rising addresses, all in 0..63 (R50). -/
def Memory.wf (m : Memory) : Bool := Memory.wfFrom 0 m

/-! ### Register updates -/

/-- Replace the port samples still to come. -/
def State.setInputs (s : State) (ps : List PortInput) : State := { s with inputs := ps }

/-- Replace `buffer`. -/
def State.setBuffer (s : State) (m : Memory) : State := { s with buffer := m }

/-- Replace all eight of `words` (R21: never one alone). -/
def State.setWords (s : State) (w : Vector Word 8) : State := { s with words := w }

/-- Replace `totalBits`. -/
def State.setTotalBits (s : State) (L : Word64) : State := { s with totalBits := L }

/-- The writes of INIT (R161). -/
def State.openSession (s : State) : State :=
  { s with words := iv, bufferLen := 0, totalBits := 0, digestValid := false, phase := .initialized }

/-- ABSORB's step past a byte that does not fill the block (R162). -/
def State.nextByte (s : State) : State := { s with bufferLen := s.bufferLen + 1, phase := .accepting }

/-- ABSORB's step past a byte that fills the block: BLOCK_BYTES × 8 more bits (R162). -/
def State.nextBlock (s : State) : State :=
  { s with bufferLen := 0, totalBits := add64 s.totalBits 512, phase := .accepting }

/-- The last writes of FINAL: latch the serialized words and end the session (R164, R169). -/
def State.closeSession (s : State) : State :=
  { s with digest := serialize s.words, digestValid := true, bufferLen := 0, phase := .finalized }

/-! ### Fault entry and reset -/

/-- `raise X`: set `fault` and its cause, and nothing else (R197). Nothing is saved and control goes nowhere (R201). -/
def State.raiseFault (s : State) (c : FaultCause) : State := { s with fault := true, faultCause := c }

/-- The reset event (R220): the only way out of a fault (R199, R201: there is no return from one). The block takes the
reset state whatever it was doing; what the host presents later is not the block's (log 5). -/
def State.resetEvent (s : State) : State := State.reset.setInputs s.inputs

/-! ### Admission checks, in the order of R196 -/

/-- While `fault` = 1 a command is refused: it changes no state whatever (R196, R199; log 7). -/
def unlessFaulted (s : State) (body : Outcome) : Outcome := if s.fault then .next s else body

/-- ABSORB and FINAL outside a session raise ContractViolation (R192, R196). -/
def requireSession (s : State) (body : Outcome) : Outcome :=
  if s.phase.inSession then body else .next (s.raiseFault .contractViolation)

/-- The next byte would complete the block that takes the message length to 2^64 bits (R194). -/
def lengthExhausted (s : State) : Bool :=
  s.bufferLen == 63 && s.totalBits == BitVec.ofNat 64 (2 ^ 64 - 512)

/-- ABSORB at the length bound raises LengthOverflow, before any write (R194, R196). -/
def requireRoom (s : State) (body : Outcome) : Outcome :=
  if lengthExhausted s then .next (s.raiseFault .lengthOverflow) else body

/-! ### COMPRESS on the registers -/

/-- `words <- COMPRESS(words, buffer)` (R130): absent when a byte of `buffer` has no value. -/
def compressBuffer (s : State) : Option State :=
  match s.buffer.block with
  | some B => some (s.setWords (compress s.words B))
  | none => none

/-- The end of a command that runs COMPRESS: it completes, or it would have read a byte that has no value (log 2). -/
def complete : Option State → Outcome
  | some s => .next s
  | none => .fault .unwrittenByte

end Sys2Proof.Machine
end

