-- ==== Sys2Proof/Machine/CommandPort.lean ====
section
/-! DEFINITION. The command port (spec/30_encoding.md R82): what one sample of the input ports asks of the block. -/

namespace Sys2Proof.Machine

/-- What a port sample asks. -/
inductive PortEvent where
  /-- `rst` = 0 and `cmd_valid` = 0: "not a command and changes nothing" (R82). -/
  | idle
  /-- `rst` = 1 (R220). -/
  | reset
  /-- `rst` = 0 and `cmd_valid` = 1: the command word is accepted (R82). -/
  | command (w : CommandWord)
deriving DecidableEq, Repr

/-- The command word on the port, {`cmd_op`, `cmd_data`} (R82, R83). -/
def PortInput.word (p : PortInput) : CommandWord := (p.cmdOp ++ p.cmdData : BitVec (2 + 8))

/-- Reset wins over a command on the same edge (R220, D30); else a valid command word is accepted (R82). The samples a
model meets are those at which `cmd_ready` = 1 or `rst` = 1 (log 4). -/
def PortInput.event (p : PortInput) : PortEvent :=
  if p.rst then .reset else if p.cmdValid then .command p.word else .idle

/-- The sample in which the host presents the command word w. -/
def PortInput.ofWord (w : CommandWord) : PortInput := ⟨false, true, opField w, dataField w⟩

/-- The sample in which the host asserts reset and presents nothing. -/
def PortInput.ofReset : PortInput := ⟨true, false, 0, 0⟩

end Sys2Proof.Machine
end

