-- ==== Sys2Proof/Machine/Padder.lean ====
section
/-! DEFINITION. PAD inside FINAL (spec/43_padder.md R150 to R155), and the padding of a message as a pure function
(R157). -/

namespace Sys2Proof.Machine

/-- L, the length of the whole message in bits (R151). -/
def messageBits (s : State) : Word64 := add64 s.totalBits (tailBits s.bufferLen)

/-- Step 1: `buffer[n] <- 0x80` (R152). -/
def markedBuffer (s : State) : Memory := s.buffer.write s.bufferLen.toNat 0x80

/-- Step 2, the only block when n ≤ 55: zero fill up to index 56, then the length suffix (R153, R155). -/
def onlyPadBuffer (s : State) : Memory :=
  ((markedBuffer s).zeroFill (s.bufferLen.toNat + 1) 55).write64 56 (messageBits s)

/-- Step 3, the intermediate block when n ≥ 56: zero fill to 64, no length suffix (R154). -/
def firstPadBuffer (s : State) : Memory := (markedBuffer s).zeroFill (s.bufferLen.toNat + 1) 63

/-- Step 3, the last block when n ≥ 56: "clear the buffer to zero", then the length suffix (R154, R155). -/
def secondPadBuffer (s : State) : Memory :=
  ((firstPadBuffer s).zeroFill 0 63).write64 56 (messageBits s)

/-- PAD with its one or two COMPRESS runs (R150 to R155); `totalBits <- L` and n are settled before any write (R151). -/
def pad (s : State) : Option State :=
  if s.bufferLen.toNat ≤ 55 then
    compressBuffer ((s.setTotalBits (messageBits s)).setBuffer (onlyPadBuffer s))
  else
    match compressBuffer ((s.setTotalBits (messageBits s)).setBuffer (firstPadBuffer s)) with
    | some t => compressBuffer (t.setBuffer (secondPadBuffer s))
    | none => none

/-- `padding(m)`: 0x80, then z = (55 - m) mod 64 zero bytes, then `be64_unpack(8 × m)` (R157). DESIGN CHOICE (log 17): from
m = 2^61 on, where 8 × m does not fit 64 bits and the spec gives no padding (R194), the length is taken mod 2^64. -/
def padding (m : Nat) : List Byte :=
  0x80 :: (List.replicate ((119 - m % 64) % 64) 0 ++ be64Unpack (BitVec.ofNat 64 (8 * m)))

end Sys2Proof.Machine
end

