-- ==== Sys2Proof/Machine/Engine.lean ====
section
/-! DEFINITION. The meanings of the commands: INIT, ABSORB, FINAL (spec/44_engine.md R160 to R164) and the reserved
encoding (spec/60_exceptions.md R193), each with the checks of the step function R196. -/

namespace Sys2Proof.Machine

/-- INIT (R161): admitted in every phase; `data` is ignored (R85 b). -/
def execInit (_data : Byte) (s : State) : Outcome :=
  unlessFaulted s (.next s.openSession)

/-- The effect of ABSORB b once admitted (R162). -/
def absorbByte (b : Byte) (s : State) : Option State :=
  if s.bufferLen = 63 then
    (compressBuffer (s.setBuffer (s.buffer.write s.bufferLen.toNat b))).map State.nextBlock
  else some (s.setBuffer (s.buffer.write s.bufferLen.toNat b)).nextByte

/-- ABSORB b (R162), with ContractViolation (R192) and LengthOverflow (R194). -/
def execAbsorb (b : Byte) (s : State) : Outcome :=
  unlessFaulted s (requireSession s (requireRoom s (complete (absorbByte b s))))

/-- The effect of FINAL once admitted (R164): PAD, COMPRESS, SERIALIZE, end of session. -/
def finalize (s : State) : Option State := (pad s).map State.closeSession

/-- FINAL (R164), with ContractViolation (R192); `data` is ignored (R85 b). -/
def execFinal (_data : Byte) (s : State) : Outcome :=
  unlessFaulted s (requireSession s (complete (finalize s)))

/-- The reserved encoding raises IllegalCommand in every phase (R193); `data` is ignored (R83). -/
def execRsvd (_data : Byte) (s : State) : Outcome :=
  unlessFaulted s (.next (s.raiseFault .illegalCommand))

end Sys2Proof.Machine
end

