-- ==== Sys2Proof/Machine/Dispatch.lean ====
section
/-! DEFINITION. The top-level dispatch (spec/60_exceptions.md R196): one arm for each constructor of Instr. -/

namespace Sys2Proof.Machine

def exec (i : Instr) (s : State) : Host.Outcome State Fault Refusal :=
  match i with
  | .init data => Sys2Proof.Machine.execInit data s
  | .absorb b => Sys2Proof.Machine.execAbsorb b s
  | .final data => Sys2Proof.Machine.execFinal data s
  | .rsvd data => Sys2Proof.Machine.execRsvd data s

end Sys2Proof.Machine
end

