-- ==== Sys2Proof/Machine/Step.lean ====
section
/-! DEFINITION. One step of the machine: it takes the next sample of the input ports and resets, runs the accepted command
to completion, or idles (spec/20_memory.md R60, spec/30_encoding.md R82). There is no program counter (spec/10_state.md
R32): the next command is the next one the host presents. -/

namespace Sys2Proof.Machine

/-- One step. With no sample left to take the block idles: it "holds its state indefinitely" (spec/60_exceptions.md
R208). -/
def step (s : State) : Host.Outcome State Fault Refusal :=
  match s.inputs with
  | [] => .next s
  | p :: rest =>
    match p.event with
    | .idle => .next (s.setInputs rest)
    | .reset => .next (s.setInputs rest).resetEvent
    | .command w => exec (decode w) (s.setInputs rest)

/-- The state in which the host presents the given command word next (log 3, log 11). -/
def State.withFetchWord (s : State) (nbits w : Nat) : State :=
  s.setInputs (PortInput.ofWord (BitVec.ofNat 10 (w % 2 ^ nbits)) :: s.inputs)

end Sys2Proof.Machine
end

