-- ==== Sys2Proof/Machine/Script.lean ====
section
/-! DEFINITION. The script notation and its pseudo-commands (spec/30_encoding.md R87, R88), as the port samples each line
stands for. -/

namespace Sys2Proof.Machine

/-- The three ways to write the data of an UPDATE or HASH (R88). -/
inductive ScriptData where
  /-- `"text"`: one byte for each character, its ASCII code. -/
  | text (chars : List Char)
  /-- `hex:AABB...`: one byte for each pair of hex digits. -/
  | hex (bytes : List Byte)
  /-- `n*0xNN`: n times the same byte. -/
  | times (n : Nat) (b : Byte)
deriving DecidableEq, Repr

/-- One line of a script (R87, R88). -/
inductive ScriptLine where
  | reset
  | init
  | absorb (b : Byte)
  | final
  | rsvd
  | update (d : ScriptData)
  | hash (d : ScriptData)
deriving DecidableEq, Repr

/-- Text is made of ASCII characters, so that each has an ASCII code (R88). -/
def ScriptData.wf : ScriptData → Bool
  | .text cs => cs.all fun c => decide (c.toNat < 128)
  | .hex _ => true
  | .times _ _ => true

/-- The bytes a script's data stands for (R88). -/
def ScriptData.bytes : ScriptData → List Byte
  | .text cs => cs.map fun c => BitVec.ofNat 8 c.toNat
  | .hex bs => bs
  | .times n b => List.replicate n b

/-- `UPDATE`: one ABSORB word, 0x100 + b, for each byte, in order (R87, R88). -/
def updateWords (bs : List Byte) : List CommandWord := bs.map fun b => 0x100 + b.setWidth 10

/-- The port samples of a script line: the command words of R87, or the reset event. -/
def ScriptLine.samples : ScriptLine → List PortInput
  | .reset => [PortInput.ofReset]
  | .init => [PortInput.ofWord 0x000]
  | .absorb b => (updateWords [b]).map PortInput.ofWord
  | .final => [PortInput.ofWord 0x200]
  | .rsvd => [PortInput.ofWord 0x300]
  | .update d => (updateWords d.bytes).map PortInput.ofWord
  | .hash d => PortInput.ofWord 0x000 :: ((updateWords d.bytes).map PortInput.ofWord ++ [PortInput.ofWord 0x200])

end Sys2Proof.Machine
end

