-- ==== Sys2Proof/Machine/Session.lean ====
section
/-! DEFINITION. Sequences of commands and the digest as a function of the message: what spec/44_engine.md R163 and R165
speak of, stated over the meanings of the commands. -/

namespace Sys2Proof.Machine

/-- Run commands one after the other, stopping where one stops (R60). -/
def execAll : List Instr → State → Outcome
  | [], s => .next s
  | i :: is, s =>
    match exec i s with
    | .next t => execAll is t
    | .fault r => .fault r
    | .refused r => .refused r

/-- `Update(state, data)`: one ABSORB for each byte, in order (R81, R163). -/
def update (data : List Byte) : List Instr := data.map Instr.absorb

/-- The consecutive 64-byte blocks of a byte string, `k` of them (R157, R165). -/
def takeBlocks : Nat → List Byte → List (List Byte)
  | 0, _ => []
  | k + 1, M => M.take 64 :: takeBlocks k (M.drop 64)

/-- The complete 64-byte blocks of a byte string (R163). -/
def fullBlocks (M : List Byte) : List (List Byte) := takeBlocks (M.length / 64) M

/-- The fold of COMPRESS over blocks, starting from IV (R163, R165). -/
def foldBlocks (Bs : List (List Byte)) : Vector Word 8 := Bs.foldl compress iv

/-- S_k of R165: COMPRESS folded over the blocks of the message followed by its padding. -/
def hashWords (M : List Byte) : Vector Word 8 := foldBlocks (fullBlocks (M ++ padding M.length))

/-- The digest of a message (R165): "the function the source calls SHA256". -/
def sha256 (M : List Byte) : Vector Byte 32 := serialize (hashWords M)

end Sys2Proof.Machine
end

