-- ==== Sys2Proof/Safety.lean ====
section
/-! DEFINITION. What a safe state is: the invariants of spec/10_state.md R35 with the write-before-read property of
spec/20_memory.md R66, and what it means for two states to agree on everything that holds a value. -/

namespace Sys2Proof.Machine

/-- The invariants that hold between two commands (R35), and the fact behind R66 that the tail has been written. -/
structure State.Inv (s : State) : Prop where
  /-- R35 (a): `fault` = 0 exactly when there is no cause. -/
  cause : s.fault = false ↔ s.faultCause = .none
  /-- R35 (b): in a session `totalBits` is a multiple of 512. -/
  blocks : s.phase.inSession = true → s.totalBits.toNat % 512 = 0
  /-- R35 (c): in Initialized the HashState is the fresh one. -/
  fresh : s.phase = .initialized → s.words = iv ∧ s.bufferLen = 0 ∧ s.totalBits = 0
  /-- R35 (d): `digest_valid` = 1 exactly in Finalized. -/
  valid : s.digestValid = true ↔ s.phase = .finalized
  /-- R35 (e): in Finalized `digest` is the serialized words, the buffer is empty and `totalBits` counts whole bytes. -/
  result : s.phase = .finalized →
    s.digest = serialize s.words ∧ s.bufferLen = 0 ∧ s.totalBits.toNat % 8 = 0
  /-- R35 (f), for `buffer`: in Uninitialized no byte has a value. -/
  absent : s.phase = .uninitialized → s.buffer = []
  /-- `buffer` is in canonical form, every address in 0..63 (R50). -/
  form : s.buffer.wf = true
  /-- R66: in a session every byte of the tail has been written. -/
  tail : s.phase.inSession = true → ∀ j, j < s.bufferLen.toNat → (s.buffer.read j).isSome = true

/-- A safe state: the invariants hold and no fault has occurred (R199: "any claim about a digest must carry the premise
fault = 0"). -/
def State.Safe (s : State) : Prop := s.Inv ∧ s.fault = false

/-- Two states agree on everything that holds a value a later command or a port could show: the status registers; the
digest while it is valid; and in a session `words`, `bufferLen`, `totalBits` and the tail. Nothing is asked of registers
that hold no value (R36), of stale bytes (R39) or of the HashState after FINAL (R169). -/
structure State.Agree (s t : State) : Prop where
  phase : s.phase = t.phase
  fault : s.fault = t.fault
  cause : s.faultCause = t.faultCause
  valid : s.digestValid = t.digestValid
  inputs : s.inputs = t.inputs
  digest : s.digestValid = true → s.digest = t.digest
  words : s.phase.inSession = true → s.words = t.words
  bufferLen : s.phase.inSession = true → s.bufferLen = t.bufferLen
  totalBits : s.phase.inSession = true → s.totalBits = t.totalBits
  tail : s.phase.inSession = true → ∀ j, j < s.bufferLen.toNat → s.buffer.read j = t.buffer.read j

/-- Two outcomes agree: both go on to states that agree, or both stop for the same reason. -/
def OutcomeAgree : Outcome → Outcome → Prop
  | .next s, .next t => s.Agree t
  | .fault r, .fault r' => r = r'
  | .refused r, .refused r' => r = r'
  | _, _ => False

end Sys2Proof.Machine
end

