-- ==== Sys2Proof/Certificates/Slice0/Obligations.lean ====
section
/-! DEFINITION. The statements for the provers, from the numbered rules of spec/. Rule numbers R<n> are those of spec/;
"log n" is notes/assumptions/n.md. Where a docstring says "the spec's own inference", the rule marks the sentence as
derived from other rules. -/

open Sys2Proof Sys2Proof.Machine

/-! ### Reset and the command port -/

/-- After reset the control registers have their values and every register without a reset value is absent in the model's
views (R36). Nothing is said of the contents the model chose for those registers (log 1). -/
def Obligations.ResetValues : Prop :=
  State.reset.phase = .uninitialized ∧ State.reset.fault = false ∧ State.reset.faultCause = .none ∧
  State.reset.digestValid = false ∧ State.reset.words? = none ∧ State.reset.bufferLen? = none ∧
  State.reset.totalBits? = none ∧ (∀ j, State.reset.buffer.read j = none) ∧ State.reset.digestPort = none

/-- The reset event (R220): whatever the block was doing and whatever command word stands on the same edge, the block takes
the reset state; and reset is the only event that clears `fault`. -/
def Obligations.ResetEventWins : Prop :=
  (∀ (s : State) (p : PortInput) (rest : List PortInput), s.inputs = p :: rest → p.rst = true →
    ∃ t, step s = .next t ∧ t.inputs = rest ∧ t.phase = .uninitialized ∧ t.fault = false ∧ t.faultCause = .none ∧
      t.digestValid = false ∧ t.words? = none ∧ t.bufferLen? = none ∧ t.totalBits? = none ∧
      (∀ j, t.buffer.read j = none) ∧ t.digestPort = none) ∧
  (∀ s t : State, step s = .next t → s.fault = true → t.fault = false →
    ∃ p rest, s.inputs = p :: rest ∧ p.rst = true)

/-- A step runs the decoded command (R82): when the host presents a command word and no reset, the step is exec of the
decoded word on the state without that sample; a sample with `cmd_valid` = 0 and `rst` = 0 changes nothing; with no sample
to take the block idles. -/
def Obligations.StepRunsDecodedCommand : Prop :=
  (∀ (s : State) (p : PortInput) (rest : List PortInput), s.inputs = p :: rest → p.rst = false → p.cmdValid = true →
    step s = exec (decode (p.cmdOp ++ p.cmdData : BitVec (2 + 8))) { s with inputs := rest }) ∧
  (∀ (s : State) (p : PortInput) (rest : List PortInput), s.inputs = p :: rest → p.rst = false → p.cmdValid = false →
    step s = .next { s with inputs := rest }) ∧
  (∀ s : State, s.inputs = [] → step s = .next s)

/-- A command word placed where the step takes its next command is the command that runs, on the state as it was (log 3,
log 11: the model's own way to place a word). -/
def Obligations.PlacedWordRuns : Prop :=
  ∀ (s : State) (nbits w : Nat) (i : Instr), decodeTableWord nbits w = some i → step (s.withFetchWord nbits w) = exec i s

/-! ### Encoding -/

/-- Every word selects exactly one row of the opcode map, and is decoded to the command of that row (R83). That the command
carries its data field as operand is R84 for ABSORB; for INIT, FINAL and the reserved row, whose data field the spec ignores,
it is the model's choice (log 6). -/
def Obligations.EveryWordSelectsOneRow : Prop :=
  ∀ w : CommandWord,
    (opcodeRows.filter fun r => w &&& r.mask == r.pattern).map OpcodeRow.mnemonic = [(decode w).mnemonic] ∧
    (decode w = .init (w.extractLsb' 0 8) ∨ decode w = .absorb (w.extractLsb' 0 8) ∨
     decode w = .final (w.extractLsb' 0 8) ∨ decode w = .rsvd (w.extractLsb' 0 8))

/-- Decode and encode agree in both directions, for every command with every operand and for every word; the table word of
a command decodes to it; and a number that does not fit ten bits is rejected. The layout of the words is R83's; that encoding
a decoded word gives the word back, ignored data field included, is the model's choice (log 6), and so are the table word and
the rejection (log 11). -/
def Obligations.DecodeEncodeAgree : Prop :=
  (∀ i : Instr, decode (encode i) = i) ∧ (∀ w : CommandWord, encode (decode w) = w) ∧
  (∀ (i : Instr) (nbits : Nat), 10 ≤ nbits → decodeTableWord nbits (encode i).toNat = some i) ∧
  (∀ w : Nat, 1024 ≤ w → decodeNat w = .error (.notACommandWord w))

/-- The words written out in 95_test_vectors.md V31 decode to the commands it names. Where V31 says that the data is ignored
(0x0a5, 0x2ff) or gives no operand (the words 0x300 and 0x3ff), the operand shown is the model's choice (log 6). -/
def Obligations.WrittenWordsDecode : Prop :=
  decode 0b0000000000 = .init 0x00 ∧ decode 0b0010100101 = .init 0xa5 ∧ decode 0b0100000000 = .absorb 0x00 ∧
  decode 0b0101100001 = .absorb 0x61 ∧ decode 0b0110000000 = .absorb 0x80 ∧ decode 0b0111111111 = .absorb 0xff ∧
  decode 0b1000000000 = .final 0x00 ∧ decode 0b1011111111 = .final 0xff ∧ decode 0b1100000000 = .rsvd 0x00 ∧
  decode 0b1111111111 = .rsvd 0xff

/-- The data field of INIT, FINAL and the reserved encoding has no effect (R85 b; for the reserved row, R83's column). -/
def Obligations.DataFieldIgnored : Prop :=
  ∀ (d d' : Byte) (s : State), exec (.init d) s = exec (.init d') s ∧ exec (.final d) s = exec (.final d') s ∧
    exec (.rsvd d) s = exec (.rsvd d') s

/-- A script line stands for the commands of R87 and R88: HASH is INIT, one ABSORB for each byte, FINAL; UPDATE of nothing
is no command; text is one byte for each character, its ASCII code (text of ASCII characters, log 15); hex data is its bytes
in order; n*0xNN is n equal bytes. -/
def Obligations.ScriptExpansion : Prop :=
  (∀ d : ScriptData, (ScriptLine.update d).samples.map PortInput.event =
    d.bytes.map fun b => PortEvent.command (encode (.absorb b))) ∧
  (∀ d : ScriptData, (ScriptLine.hash d).samples =
    ScriptLine.init.samples ++ (ScriptLine.update d).samples ++ ScriptLine.final.samples) ∧
  (∀ b : Byte, (ScriptLine.absorb b).samples.map PortInput.event = [.command (encode (.absorb b))]) ∧
  ScriptLine.init.samples.map PortInput.event = [.command (encode (.init 0))] ∧
  ScriptLine.final.samples.map PortInput.event = [.command (encode (.final 0))] ∧
  ScriptLine.rsvd.samples.map PortInput.event = [.command (encode (.rsvd 0))] ∧
  ScriptLine.reset.samples.map PortInput.event = [.reset] ∧
  (ScriptLine.update (.text [])).samples = [] ∧
  (∀ cs : List Char, (ScriptData.text cs).wf = true → (ScriptData.text cs).bytes.map BitVec.toNat = cs.map Char.toNat) ∧
  (∀ bs : List Byte, (ScriptData.hex bs).bytes = bs) ∧
  (∀ (n : Nat) (b : Byte), (ScriptData.times n b).bytes = List.replicate n b)

/-! ### The commands -/

/-- INIT (R161): in every phase, when not faulted, it writes `words`, `bufferLen`, `totalBits`, `digest_valid` and `phase`
and nothing else; when faulted it changes nothing; in Initialized it leaves every register as it was (for a state that
meets the invariants, whose `words` are then IV). -/
def Obligations.InitEffect : Prop :=
  (∀ (d : Byte) (s : State), s.fault = false →
    exec (.init d) s = .next { s with words := iv, bufferLen := 0, totalBits := 0, digestValid := false,
                                      phase := .initialized }) ∧
  (∀ (d : Byte) (s : State), s.fault = true → exec (.init d) s = .next s) ∧
  (∀ (d : Byte) (s : State), s.Inv → s.phase = .initialized → exec (.init d) s = .next s)

/-- ABSORB b (R162): the byte is stored at `bufferLen`; at index 63 the block T ++ [b] is compressed into `words`,
`bufferLen` returns to 0 and `totalBits` advances by 512; ContractViolation and LengthOverflow come before any write. T is
the 63 bytes of the tail. -/
def Obligations.AbsorbEffect : Prop :=
  ∀ (b : Byte) (s : State), s.fault = false →
    (s.phase.inSession = true → s.bufferLen ≠ 63 →
      exec (.absorb b) s = .next { s with buffer := s.buffer.write s.bufferLen.toNat b, bufferLen := s.bufferLen + 1,
                                          phase := .accepting }) ∧
    (s.phase.inSession = true → s.bufferLen = 63 → s.totalBits ≠ BitVec.ofNat 64 (2 ^ 64 - 512) →
      ∀ T : List Byte, T.length = 63 → (∀ j, j < 63 → s.buffer.read j = T[j]?) →
        exec (.absorb b) s = .next { s with buffer := s.buffer.write 63 b, words := compress s.words (T ++ [b]),
                                            bufferLen := 0, totalBits := s.totalBits + 512, phase := .accepting }) ∧
    (s.phase.inSession = false →
      exec (.absorb b) s = .next { s with fault := true, faultCause := .contractViolation }) ∧
    (s.phase.inSession = true → s.bufferLen = 63 → s.totalBits = BitVec.ofNat 64 (2 ^ 64 - 512) →
      exec (.absorb b) s = .next { s with fault := true, faultCause := .lengthOverflow })

/-- FINAL with n = `bufferLen` ≤ 55 (R153, with R151, R152, R155 for this case): one block, the n tail bytes T, 0x80, 55 - n
zero bytes and the 64-bit length, is compressed and serialized; the buffer holds that block. -/
def Obligations.FinalOneBlock : Prop :=
  ∀ (d : Byte) (s : State) (T : List Byte), s.fault = false → s.phase.inSession = true → s.bufferLen.toNat ≤ 55 →
    T.length = s.bufferLen.toNat → (∀ j, j < s.bufferLen.toNat → s.buffer.read j = T[j]?) →
    let L : Word64 := s.totalBits + BitVec.ofNat 64 (8 * s.bufferLen.toNat)
    let B := T ++ [0x80] ++ List.replicate (55 - s.bufferLen.toNat) 0 ++ be64Unpack L
    let S := compress s.words B
    ∃ m : Memory, (∀ j, j < 64 → m.read j = B[j]?) ∧ (∀ j, 64 ≤ j → m.read j = s.buffer.read j) ∧
      exec (.final d) s = .next { s with words := S, buffer := m, bufferLen := 0, totalBits := L,
                                         digest := serialize S, digestValid := true, phase := .finalized }

/-- FINAL with n = `bufferLen` ≥ 56 (R154, with R151, R152, R155 for this case): the block T, 0x80, 63 - n zero bytes is
compressed, then the block of 56 zero bytes and the length; the buffer holds the second block. -/
def Obligations.FinalTwoBlocks : Prop :=
  ∀ (d : Byte) (s : State) (T : List Byte), s.fault = false → s.phase.inSession = true → 56 ≤ s.bufferLen.toNat →
    T.length = s.bufferLen.toNat → (∀ j, j < s.bufferLen.toNat → s.buffer.read j = T[j]?) →
    let L : Word64 := s.totalBits + BitVec.ofNat 64 (8 * s.bufferLen.toNat)
    let B1 := T ++ [0x80] ++ List.replicate (63 - s.bufferLen.toNat) 0
    let B2 := List.replicate 56 0 ++ be64Unpack L
    let S := compress (compress s.words B1) B2
    ∃ m : Memory, (∀ j, j < 64 → m.read j = B2[j]?) ∧ (∀ j, 64 ≤ j → m.read j = s.buffer.read j) ∧
      exec (.final d) s = .next { s with words := S, buffer := m, bufferLen := 0, totalBits := L,
                                         digest := serialize S, digestValid := true, phase := .finalized }

/-- FINAL completes from every open session of a state that meets the invariants, without a fault, and leaves the state of
R169: `phase` = Finalized, a valid digest that is the serialized `words`, an empty tail, and `totalBits` = L, the exact sum
(R123: it cannot wrap). -/
def Obligations.StateAfterFinal : Prop :=
  ∀ (d : Byte) (s : State), s.Inv → s.fault = false → s.phase.inSession = true →
    ∃ t, exec (.final d) s = .next t ∧ t.phase = .finalized ∧ t.digestValid = true ∧ t.digest = serialize t.words ∧
      t.bufferLen = 0 ∧ t.totalBits.toNat = s.totalBits.toNat + 8 * s.bufferLen.toNat ∧ t.fault = false ∧
      t.digestPort = some (digestBits t.digest)

/-! ### Faults -/

/-- ContractViolation (R192): ABSORB or FINAL before INIT or after FINAL has no effect other than fault entry. -/
def Obligations.ContractViolationCases : Prop :=
  ∀ (b : Byte) (s : State), s.fault = false → s.phase = .uninitialized ∨ s.phase = .finalized →
    exec (.absorb b) s = .next { s with fault := true, faultCause := .contractViolation } ∧
    exec (.final b) s = .next { s with fault := true, faultCause := .contractViolation }

/-- IllegalCommand (R193): the reserved command, which is every word 0x300..0x3ff, raises it in every phase and has no
other effect. -/
def Obligations.IllegalCommandEverywhere : Prop :=
  (∀ (d : Byte) (s : State), s.fault = false →
    exec (.rsvd d) s = .next { s with fault := true, faultCause := .illegalCommand }) ∧
  (∀ (w : CommandWord) (s : State), 0x300 ≤ w.toNat → s.fault = false →
    exec (decode w) s = .next { s with fault := true, faultCause := .illegalCommand })

/-- LengthOverflow (R194): the ABSORB at `bufferLen` = 63, `totalBits` = 2^64 - 512 raises it and writes nothing; every
other ABSORB of an open session is normal, and so is a FINAL issued instead, with L = 2^64 - 8. The last two hold of states
that meet the invariants. -/
def Obligations.LengthBoundary : Prop :=
  (∀ (b : Byte) (s : State), s.fault = false → s.phase.inSession = true → s.bufferLen = 63 →
    s.totalBits = BitVec.ofNat 64 (2 ^ 64 - 512) →
    exec (.absorb b) s = .next { s with fault := true, faultCause := .lengthOverflow }) ∧
  (∀ (b : Byte) (s : State), s.Inv → s.fault = false → s.phase.inSession = true →
    ¬ (s.bufferLen = 63 ∧ s.totalBits = BitVec.ofNat 64 (2 ^ 64 - 512)) →
    ∃ t, exec (.absorb b) s = .next t ∧ t.fault = false) ∧
  (∀ (d : Byte) (s : State), s.Inv → s.fault = false → s.phase.inSession = true → s.bufferLen = 63 →
    s.totalBits = BitVec.ofNat 64 (2 ^ 64 - 512) →
    ∃ t, exec (.final d) s = .next t ∧ t.fault = false ∧ t.totalBits = BitVec.ofNat 64 (2 ^ 64 - 8))

/-- The step function, in the order of its checks (R196): an existing fault, then the encoding, then the phase, then the
length. -/
def Obligations.OrderOfChecks : Prop :=
  ∀ (w : CommandWord) (s : State),
    exec (decode w) s =
      if s.fault = true then .next s
      else if w.extractLsb' 8 2 = 3 then .next { s with fault := true, faultCause := .illegalCommand }
      else if w.extractLsb' 8 2 = 0 then
        .next { s with words := iv, bufferLen := 0, totalBits := 0, digestValid := false, phase := .initialized }
      else if s.phase = .uninitialized ∨ s.phase = .finalized then
        .next { s with fault := true, faultCause := .contractViolation }
      else if w.extractLsb' 8 2 = 1 then
        if s.bufferLen = 63 ∧ s.totalBits = BitVec.ofNat 64 (2 ^ 64 - 512) then
          .next { s with fault := true, faultCause := .lengthOverflow }
        else complete (absorbByte (w.extractLsb' 0 8) s)
      else complete (finalize s)

/-- Fault entry does exactly one thing (R197): a command that raises a fault sets `fault` and a cause, whose code is 1 for
IllegalCommand, 2 for ContractViolation, 3 for LengthOverflow, and every other piece of state keeps its value. -/
def Obligations.FaultEntryWritesNothingElse : Prop :=
  ∀ (i : Instr) (s t : State), exec i s = .next t → s.fault = false → t.fault = true →
    ∃ c : FaultCause, t = { s with fault := true, faultCause := c } ∧
      ((c = .illegalCommand ∧ t.ports.faultCause = 1) ∨ (c = .contractViolation ∧ t.ports.faultCause = 2) ∨
       (c = .lengthOverflow ∧ t.ports.faultCause = 3))

/-- After a fault (R199): every command is refused and changes no state; a step that is not a reset changes nothing but the
samples to come; the reset event takes the block to Uninitialized without a fault. -/
def Obligations.FaultIsStickyUntilReset : Prop :=
  (∀ (i : Instr) (s : State), s.fault = true → exec i s = .next s) ∧
  (∀ (s : State) (p : PortInput) (rest : List PortInput), s.fault = true → s.inputs = p :: rest → p.rst = false →
    step s = .next { s with inputs := rest }) ∧
  (∀ (s : State) (p : PortInput) (rest : List PortInput), s.fault = true → s.inputs = p :: rest → p.rst = true →
    ∃ t, step s = .next t ∧ t.fault = false ∧ t.faultCause = .none ∧ t.phase = .uninitialized)

/-- The host interface's `refused` never occurs: every command has a meaning (R83, all four rows). -/
def Obligations.NoCommandIsUnmodelled : Prop :=
  ∀ (i : Instr) (s : State) (r : Refusal), exec i s ≠ .refused r

/-- The model's one stop (log 2, the model's choice; R37 says it loses no behaviour): ABSORB of the 64th byte and FINAL
stop exactly when a byte of the tail they would compress has never been written. -/
def Obligations.StopsOnlyOnUnwrittenTail : Prop :=
  (∀ (b : Byte) (s : State) (r : Fault), exec (.absorb b) s = .fault r ↔
    (s.fault = false ∧ s.phase.inSession = true ∧ s.bufferLen = 63 ∧ s.totalBits ≠ BitVec.ofNat 64 (2 ^ 64 - 512) ∧
      ∃ j, j < 63 ∧ s.buffer.read j = none)) ∧
  (∀ (d : Byte) (s : State) (r : Fault), exec (.final d) s = .fault r ↔
    (s.fault = false ∧ s.phase.inSession = true ∧ ∃ j, j < s.bufferLen.toNat ∧ s.buffer.read j = none))

/-! ### Whole-machine rules -/

/-- The phases and transitions (R160), for a block that meets the invariants; reset takes every phase to Uninitialized. -/
def Obligations.PhaseTransitions : Prop :=
  (∀ (i : Instr) (s t : State), s.Inv → exec i s = .next t →
    (s.fault = true → t.phase = s.phase) ∧
    (s.fault = false → match i, s.phase with
      | .init _, _ => t.phase = .initialized ∧ t.fault = false
      | .absorb _, .uninitialized => t.phase = .uninitialized ∧ t.fault = true ∧ t.faultCause = .contractViolation
      | .absorb _, .initialized => t.phase = .accepting ∧ t.fault = false
      | .absorb _, .accepting => t.phase = .accepting ∧
          (t.fault = true ↔ s.bufferLen = 63 ∧ s.totalBits = BitVec.ofNat 64 (2 ^ 64 - 512)) ∧
          (t.fault = true → t.faultCause = .lengthOverflow)
      | .absorb _, .finalized => t.phase = .finalized ∧ t.fault = true ∧ t.faultCause = .contractViolation
      | .final _, .uninitialized => t.phase = .uninitialized ∧ t.fault = true ∧ t.faultCause = .contractViolation
      | .final _, .initialized => t.phase = .finalized ∧ t.fault = false
      | .final _, .accepting => t.phase = .finalized ∧ t.fault = false
      | .final _, .finalized => t.phase = .finalized ∧ t.fault = true ∧ t.faultCause = .contractViolation
      | .rsvd _, _ => t.phase = s.phase ∧ t.fault = true ∧ t.faultCause = .illegalCommand)) ∧
  (∀ (s : State) (p : PortInput) (rest : List PortInput), s.inputs = p :: rest → p.rst = true →
    ∃ t, step s = .next t ∧ t.phase = .uninitialized)

/-- Who writes the digest (R28): FINAL writes `digest` with the Serializer's output and sets `digest_valid`; INIT and reset
clear `digest_valid`; no other command and no other event writes either; and `digest_valid` = 1 exactly in Finalized, for a
state that meets the invariants. The port shows nothing while `digest_valid` = 0. -/
def Obligations.DigestWriters : Prop :=
  (∀ (i : Instr) (s t : State), exec i s = .next t →
    (t.digest = s.digest ∧ t.digestValid = s.digestValid) ∨
    (∃ d, i = .init d ∧ t.digest = s.digest ∧ t.digestValid = false) ∨
    (∃ d, i = .final d ∧ t.digest = serialize t.words ∧ t.digestValid = true)) ∧
  (∀ (d : Byte) (s t : State), exec (.init d) s = .next t → s.fault = false → t.digestValid = false) ∧
  (∀ (d : Byte) (s t : State), exec (.final d) s = .next t → s.fault = false → t.fault = false →
    t.digest = serialize t.words ∧ t.digestValid = true) ∧
  (∀ (s : State) (p : PortInput) (rest : List PortInput), s.inputs = p :: rest → p.rst = true →
    ∃ t, step s = .next t ∧ t.digestValid = false) ∧
  (∀ (s : State) (p : PortInput) (rest : List PortInput), s.inputs = p :: rest → p.rst = false → p.cmdValid = false →
    ∃ t, step s = .next t ∧ t.digest = s.digest ∧ t.digestValid = s.digestValid) ∧
  (∀ s : State, s.Inv → (s.digestValid = true ↔ s.phase = .finalized)) ∧
  (∀ s : State, s.digestValid = false → s.digestPort = none)

/-- Who writes `words` (R21, R25): INIT writes IV, and after that only results of COMPRESS are written: one in ABSORB, one or
two in FINAL. The reserved encoding writes nothing. -/
def Obligations.WordsWriters : Prop :=
  ∀ (i : Instr) (s t : State), exec i s = .next t → t.words = s.words ∨
    (∃ d, i = .init d ∧ t.words = iv) ∨
    (∃ b B, i = .absorb b ∧ B.length = 64 ∧ t.words = compress s.words B) ∨
    (∃ d B, i = .final d ∧ B.length = 64 ∧ t.words = compress s.words B) ∨
    (∃ d B1 B2, i = .final d ∧ B1.length = 64 ∧ B2.length = 64 ∧ t.words = compress (compress s.words B1) B2)

/-- `totalBits` counts (R24; the count between commands is the spec's own inference in R35 b): each ABSORB that does not
fault adds exactly 8 to `totalBits` + 8 × `bufferLen`, as exact numbers, and the sum never passes 2^64 - 8. -/
def Obligations.BitCountAdvances : Prop :=
  (∀ (b : Byte) (s t : State), s.Inv → s.phase.inSession = true → exec (.absorb b) s = .next t →
    s.fault = false → t.fault = false →
    t.totalBits.toNat + 8 * t.bufferLen.toNat = s.totalBits.toNat + 8 * s.bufferLen.toNat + 8) ∧
  (∀ s : State, s.Inv → s.phase.inSession = true → s.totalBits.toNat + 8 * s.bufferLen.toNat ≤ 2 ^ 64 - 8)

/-- Frame of the commands that store nothing, INIT and the reserved encoding: every byte of `buffer`, `digest` and the
samples to come are unchanged; INIT leaves `fault` and its cause, the reserved encoding leaves every register but those
two; on a faulted block neither changes anything (R199). -/
def Obligations.FrameOfStorelessCommands : Prop :=
  (∀ (d : Byte) (s t : State), exec (.init d) s = .next t →
    (∀ a, t.buffer.read a = s.buffer.read a) ∧ t.digest = s.digest ∧ t.fault = s.fault ∧ t.faultCause = s.faultCause ∧
    t.inputs = s.inputs ∧ (s.fault = true → t = s)) ∧
  (∀ (d : Byte) (s t : State), exec (.rsvd d) s = .next t →
    (∀ a, t.buffer.read a = s.buffer.read a) ∧ t.words = s.words ∧ t.bufferLen = s.bufferLen ∧
    t.totalBits = s.totalBits ∧ t.phase = s.phase ∧ t.digest = s.digest ∧ t.digestValid = s.digestValid ∧
    t.inputs = s.inputs ∧ (s.fault = true → t = s))

/-- Frame of ABSORB: it stores to `buffer[bufferLen]` alone, so every other address reads as before, and every address
when it raises a fault or is refused; `digest`, `digest_valid` and the samples to come are unchanged; without a full block
`words` and `totalBits` are unchanged; the fault registers change only at fault entry (R197): not when the byte is taken, and
on a faulted block nothing changes (R199). -/
def Obligations.FrameOfAbsorb : Prop :=
  ∀ (b : Byte) (s t : State), exec (.absorb b) s = .next t →
    (∀ a, a ≠ s.bufferLen.toNat → t.buffer.read a = s.buffer.read a) ∧
    (t.fault = true → t.buffer = s.buffer ∧ t.words = s.words ∧ t.bufferLen = s.bufferLen ∧ t.totalBits = s.totalBits ∧
      t.phase = s.phase) ∧
    (t.fault = false → t.buffer.read s.bufferLen.toNat = some b) ∧
    t.digest = s.digest ∧ t.digestValid = s.digestValid ∧ t.inputs = s.inputs ∧
    (s.bufferLen ≠ 63 → t.words = s.words ∧ t.totalBits = s.totalBits) ∧
    (t.fault = false → t.faultCause = s.faultCause) ∧ (s.fault = true → t = s)

/-- Frame of FINAL: with n = `bufferLen` ≤ 55 it stores to n..63, with n ≥ 56 to 0..63; every other address reads as
before, and every address when it raises a fault or is refused; the samples to come are unchanged; the fault registers
change only at fault entry (R197): not when FINAL completes, and on a faulted block nothing changes (R199). -/
def Obligations.FrameOfFinal : Prop :=
  ∀ (d : Byte) (s t : State), exec (.final d) s = .next t →
    (s.bufferLen.toNat ≤ 55 → ∀ a, (a < s.bufferLen.toNat ∨ 64 ≤ a) → t.buffer.read a = s.buffer.read a) ∧
    (∀ a, 64 ≤ a → t.buffer.read a = s.buffer.read a) ∧
    (t.fault = true → t.buffer = s.buffer ∧ t.words = s.words ∧ t.bufferLen = s.bufferLen ∧ t.totalBits = s.totalBits ∧
      t.phase = s.phase ∧ t.digest = s.digest ∧ t.digestValid = s.digestValid) ∧
    t.inputs = s.inputs ∧ (t.fault = false → t.faultCause = s.faultCause) ∧ (s.fault = true → t = s)

/-- The invariants hold after reset (R35, the spec's own inference). -/
def Obligations.ResetMeetsInvariants : Prop := State.reset.Inv

/-- Every step keeps the invariants (R35 and R66, the spec's own inferences): the sticky fault and its cause, whole blocks
counted, the fresh session, the valid digest, the canonical buffer, the written tail. -/
def Obligations.StepKeepsInvariants : Prop :=
  ∀ s t : State, s.Inv → step s = .next t → t.Inv

/-- From every state that meets the invariants a step goes on: no byte that nothing has written is ever read (R37, R66, the
spec's own inferences), and no command is without a meaning. -/
def Obligations.InvariantStatesNeverStop : Prop :=
  ∀ s : State, s.Inv → ∃ t, step s = .next t

/-- Nothing that holds no value, no stale byte and nothing left by FINAL can be observed (R37, R38, R39, R66, the spec's own
inferences): states that agree on everything else stay in agreement under every step. -/
def Obligations.StepKeepsAgreement : Prop :=
  ∀ s t : State, s.Agree t → OutcomeAgree (step s) (step t)

/-- What the output ports show (R82): `phase`, `fault`, `fault_cause` and `digest_valid` with the codes of R26, R27 and R191,
and the digest while it is valid; and states that agree show the same at every port. That `cmd_ready` shows 1 between commands
and the digest port shows nothing while `digest_valid` = 0 are log 4 and log 8. -/
def Obligations.AgreementShowsOnPorts : Prop :=
  (∀ s t : State, s.Agree t → s.ports = t.ports) ∧
  (∀ s : State, s.ports.fault = s.fault ∧ s.ports.digestValid = s.digestValid ∧
    s.ports.digest = (if s.digestValid = true then some (digestBits s.digest) else none)) ∧
  (∀ s : State, (s.phase = .uninitialized → s.ports.phase = 0) ∧ (s.phase = .initialized → s.ports.phase = 1) ∧
    (s.phase = .accepting → s.ports.phase = 2) ∧ (s.phase = .finalized → s.ports.phase = 3)) ∧
  (∀ s : State, (s.faultCause = .none → s.ports.faultCause = 0) ∧ (s.faultCause = .illegalCommand → s.ports.faultCause = 1) ∧
    (s.faultCause = .contractViolation → s.ports.faultCause = 2) ∧ (s.faultCause = .lengthOverflow → s.ports.faultCause = 3))

/-- A new session owes nothing to what came before (R38): INIT takes any two states without a fault and with the same
samples to come to states that agree. -/
def Obligations.InitForgetsTheOldSession : Prop :=
  ∀ (d : Byte) (s t : State), s.Inv → t.Inv → s.fault = false → t.fault = false → s.inputs = t.inputs →
    OutcomeAgree (exec (.init d) s) (exec (.init d) t)

/-! ### Whole sessions -/

/-- Update after INIT (R163, the spec's own inference by induction on m): absorbing the bytes M from a fresh session leaves
`bufferLen` = m mod 64, `totalBits` = 512 × ⌊m / 64⌋, the last m mod 64 bytes in the buffer, and in `words` the fold of
COMPRESS over the complete blocks from IV. -/
def Obligations.UpdateAccumulates : Prop :=
  ∀ (M : List Byte) (s : State), M.length ≤ 2 ^ 61 - 1 → s.Inv → s.fault = false → s.phase = .initialized →
    ∃ t, execAll (update M) s = .next t ∧ t.fault = false ∧ t.bufferLen.toNat = M.length % 64 ∧
      t.totalBits.toNat = 512 * (M.length / 64) ∧
      (∀ j, j < M.length % 64 → t.buffer.read j = M[64 * (M.length / 64) + j]?) ∧
      t.words = foldBlocks (fullBlocks M) ∧ t.phase = (if M = [] then .initialized else .accepting) ∧
      t.digestValid = false ∧ t.inputs = s.inputs

/-- Split-invariance of the digest (R163): INIT, UPDATE a, UPDATE b, FINAL ends in the same state as INIT, UPDATE a ++ b,
FINAL, and that state holds the digest of a ++ b, wherever the cut is. That it is the digest as a function of the message is
R165, the spec's own inference. -/
def Obligations.SplitInvariance : Prop :=
  ∀ (a b : List Byte) (d d' : Byte) (s : State), a.length + b.length ≤ 2 ^ 61 - 1 → s.fault = false →
    ∃ t, execAll (.init d :: (update a ++ (update b ++ [.final d']))) s = .next t ∧
      execAll (.init d :: (update (a ++ b) ++ [.final d'])) s = .next t ∧
      t.digest = sha256 (a ++ b) ∧ t.digestValid = true ∧ t.phase = .finalized ∧ t.fault = false

/-- The digest of a session (R165, the spec's own inference): from every state without a fault, INIT, one ABSORB for each
byte of M, FINAL ends without a fault with `digest` = SERIALIZE of COMPRESS folded over the blocks of the padded message, for
every message up to 2^61 - 1 bytes. -/
def Obligations.SessionComputesDigest : Prop :=
  ∀ (M : List Byte) (d d' : Byte) (s : State), M.length ≤ 2 ^ 61 - 1 → s.fault = false →
    ∃ t, execAll (.init d :: (update M ++ [.final d'])) s = .next t ∧ t.digest = sha256 M ∧ t.digestValid = true ∧
      t.phase = .finalized ∧ t.fault = false ∧ t.words = hashWords M ∧ t.totalBits.toNat = 8 * M.length ∧
      t.bufferLen = 0 ∧ t.inputs = s.inputs

/-- The same session through the command port (R82, R88, R165): when the host presents the words of HASH M, the machine run
for that many steps shows the digest of M on the port, whatever state without a fault it started from. -/
def Obligations.PortSessionShowsDigest : Prop :=
  ∀ (M : List Byte) (s : State) (rest : List PortInput), M.length ≤ 2 ^ 61 - 1 → s.fault = false →
    s.inputs = (ScriptLine.hash (.hex M)).samples ++ rest →
    ∃ t, Host.Core.run Sys2Proof.core (M.length + 2) s = .next t ∧ t.inputs = rest ∧
      t.ports = { cmdReady := true, phase := 3, fault := false, faultCause := s.faultCause.code, digestValid := true,
                  digest := some (digestBits (sha256 M)) }

/-! ### Padding, byte order and the Serializer -/

/-- `padding(m)` (R157, the spec's own inference): one byte 0x80, z zero bytes with z = (55 - m) mod 64 the least number that
completes the last block, the 64-bit length 8 × m; the padded message is ⌊(m + 8) / 64⌋ + 1 whole blocks (R156).
From m = 2^61 on the length field is the model's choice (log 17). -/
def Obligations.PaddingFillsWholeBlocks : Prop :=
  ∀ m : Nat, ∃ z : Nat, z < 64 ∧ (z : Int) = (55 - (m : Int)) % 64 ∧
    padding m = [0x80] ++ List.replicate z 0 ++ be64Unpack (BitVec.ofNat 64 (8 * m)) ∧
    (m + 1 + z + 8) % 64 = 0 ∧ (∀ z', (m + 1 + z' + 8) % 64 = 0 → z ≤ z') ∧
    m + (padding m).length = 64 * ((m + 8) / 64 + 1)

/-- Bytes and words (R120, R121, R122): packing is big-endian, the bytes of a 32-bit and a 64-bit value are taken most
significant first, and these are the functions behind the 4-byte read and the 8-byte write. That unpacking and packing are
inverse is the spec's own inference in R121. -/
def Obligations.BytePacking : Prop :=
  (∀ b0 b1 b2 b3 : Byte, (be32Pack b0 b1 b2 b3).toNat =
    b0.toNat * 2 ^ 24 + b1.toNat * 2 ^ 16 + b2.toNat * 2 ^ 8 + b3.toNat) ∧
  (∀ b0 b1 b2 b3 : Byte, be32Unpack (be32Pack b0 b1 b2 b3) = [b0, b1, b2, b3]) ∧
  (∀ w : Word, be32Unpack w = [w.extractLsb' 24 8, w.extractLsb' 16 8, w.extractLsb' 8 8, w.extractLsb' 0 8]) ∧
  (∀ w : Word, be32Pack (w.extractLsb' 24 8) (w.extractLsb' 16 8) (w.extractLsb' 8 8) (w.extractLsb' 0 8) = w) ∧
  (∀ v : Word64, (be64Unpack v).length = 8 ∧ ∀ k, k < 8 → (be64Unpack v)[k]? = some (v.extractLsb' (56 - 8 * k) 8)) ∧
  (∀ (m : Memory) (a : Nat) (b0 b1 b2 b3 : Byte), m.read a = some b0 → m.read (a + 1) = some b1 →
    m.read (a + 2) = some b2 → m.read (a + 3) = some b3 → m.read32 a = some (be32Pack b0 b1 b2 b3)) ∧
  (∀ (m : Memory) (a : Nat) (v : Word64), m.write64 a v = m.writeBytes a (be64Unpack v))

/-- The words of a block are the big-endian reads of the buffer at 4t (R51), and the length suffix is written big-endian, its
most significant byte at the lowest index (R52). That the words at 56 and 60 are then its two halves is the spec's own
inference in R52. -/
def Obligations.BufferIsBigEndian : Prop :=
  (∀ (m : Memory) (B : List Byte), m.block = some B → ∀ t, t < 16 → m.read32 (4 * t) = (schedule B)[t]?) ∧
  (∀ (m : Memory) (a : Nat) (b0 b1 b2 b3 : Byte), m.read a = some b0 → m.read (a + 1) = some b1 →
    m.read (a + 2) = some b2 → m.read (a + 3) = some b3 →
    ∃ w, m.read32 a = some w ∧
      w.toNat = b0.toNat * 2 ^ 24 + b1.toNat * 2 ^ 16 + b2.toNat * 2 ^ 8 + b3.toNat) ∧
  (∀ (m : Memory) (L : Word64),
    (∀ k, k < 8 → (m.write64 56 L).read (56 + k) = some (L.extractLsb' (56 - 8 * k) 8)) ∧
    (∀ a, a < 56 ∨ 64 ≤ a → (m.write64 56 L).read a = m.read a) ∧
    (m.write64 56 L).read32 56 = some (L.extractLsb' 32 32) ∧ (m.write64 56 L).read32 60 = some (L.extractLsb' 0 32))

/-- SERIALIZE (R180): byte 4i + k of the digest is byte k of word i, most significant first; it is a bijection, whose
inverse is packing each group of four bytes. -/
def Obligations.SerializeBytes : Prop :=
  (∀ (S : Vector Word 8) (i : Fin 8),
    (∀ k : Fin 4, (serialize S)[4 * i.val + k.val] = S[i].extractLsb' (24 - 8 * k.val) 8) ∧
    be32Pack (serialize S)[4 * i.val] (serialize S)[4 * i.val + 1] (serialize S)[4 * i.val + 2]
      (serialize S)[4 * i.val + 3] = S[i]) ∧
  (∀ D : Vector Byte 32, ∃ S : Vector Word 8, serialize S = D)

/-- The digest port (R181): byte `digest[j]` is on bits [255 - 8j : 248 - 8j]; for the serialized words, word i is on bits
[255 - 32i : 224 - 32i]; the port has a meaning only while `digest_valid` = 1. -/
def Obligations.DigestPortLayout : Prop :=
  (∀ (s : State) (p : BitVec 256), s.digestPort = some p →
    s.digestValid = true ∧ ∀ j : Fin 32, p.extractLsb' (248 - 8 * j.val) 8 = s.digest[j]) ∧
  (∀ (S : Vector Word 8) (i : Fin 8), (digestBits (serialize S)).extractLsb' (224 - 32 * i.val) 32 = S[i])

/-- The text rendering (R182): 64 lower-case hex characters, two for each byte in the Serializer's order, high digit first;
the digit of a nibble is its entry in 0123456789abcdef. -/
def Obligations.HexRendering : Prop :=
  let digits := ['0', '1', '2', '3', '4', '5', '6', '7', '8', '9', 'a', 'b', 'c', 'd', 'e', 'f']
  ∀ d : Vector Byte 32, (renderHex d).length = 64 ∧
    (∀ j : Fin 32, (renderHex d)[2 * j.val]? = digits[d[j].toNat / 16]? ∧
      (renderHex d)[2 * j.val + 1]? = digits[d[j].toNat % 16]?) ∧
    (∀ c ∈ renderHex d, c ∈ digits)

/-! ### Primitive functions -/

/-- `add32` (R110): addition modulo 2^32. That it is associative and commutative is the spec's own inference in R110. -/
def Obligations.Add32IsModular : Prop :=
  ∀ x y z : Word, (add32 x y).toNat = (x.toNat + y.toNat) % 2 ^ 32 ∧ add32 (add32 x y) z = add32 x (add32 y z) ∧
    add32 x y = add32 y x

/-- `rotr` (R111), for amounts 1..31: bit i of the result is bit (i + n) mod 32 of x, and rotating on by 32 - n gives x
back. -/
def Obligations.RotrMovesBits : Prop :=
  ∀ (x : Word) (n : Nat), 1 ≤ n → n ≤ 31 →
    rotr x n = (x >>> n) ||| (x <<< (32 - n)) ∧
    (∀ i, i < 32 → (rotr x n).getLsbD i = x.getLsbD ((i + n) % 32)) ∧ rotr (rotr x n) (32 - n) = x

/-- `shr` (R112), for amounts 1..31: the quotient by 2^n, with n zero bits on top. -/
def Obligations.ShrDivides : Prop :=
  ∀ (x : Word) (n : Nat), 1 ≤ n → n ≤ 31 →
    (shr x n).toNat = x.toNat / 2 ^ n ∧ (∀ i, i < 32 → (shr x n).getLsbD i = (decide (i + n < 32) && x.getLsbD (i + n)))

/-- `Ch` and `Maj` (R114, R115), bit by bit: choose by x, and majority. The equal forms and the symmetry of `Maj` are the
spec's own inferences in R114 and R115. -/
def Obligations.ChooseAndMajority : Prop :=
  ∀ x y z : Word,
    (∀ i, i < 32 → (ch x y z).getLsbD i = (if x.getLsbD i = true then y.getLsbD i else z.getLsbD i)) ∧
    ch x y z = z ^^^ (x &&& (y ^^^ z)) ∧ ch x y z = (x &&& y) ||| (~~~x &&& z) ∧
    (∀ i, i < 32 → ((maj x y z).getLsbD i = true ↔
      2 ≤ (x.getLsbD i).toNat + (y.getLsbD i).toNat + (z.getLsbD i).toNat)) ∧
    maj x y z = (x &&& y) ||| (z &&& (x ||| y)) ∧ maj x y z = maj y x z ∧ maj x y z = maj x z y

/-- The four sigma functions (R116 to R119), bit by bit: the small ones lose the bits of their shift, the large ones lose
none. -/
def Obligations.SigmaBits : Prop :=
  ∀ (x : Word) (i : Nat), i < 32 →
    (bsig0 x).getLsbD i = ((x.getLsbD ((i + 2) % 32) ^^ x.getLsbD ((i + 13) % 32)) ^^ x.getLsbD ((i + 22) % 32)) ∧
    (bsig1 x).getLsbD i = ((x.getLsbD ((i + 6) % 32) ^^ x.getLsbD ((i + 11) % 32)) ^^ x.getLsbD ((i + 25) % 32)) ∧
    (ssig0 x).getLsbD i = ((x.getLsbD ((i + 7) % 32) ^^ x.getLsbD ((i + 18) % 32)) ^^
      (decide (i + 3 < 32) && x.getLsbD (i + 3))) ∧
    (ssig1 x).getLsbD i = ((x.getLsbD ((i + 17) % 32) ^^ x.getLsbD ((i + 19) % 32)) ^^
      (decide (i + 10 < 32) && x.getLsbD (i + 10)))

/-! ### The Compressor and its ROM -/

/-- SCHEDULE (R131, R132): 64 words; the first 16 are the block's big-endian words, and each later one is
σ1(W[t-2]) + W[t-7] + σ0(W[t-15]) + W[t-16]. -/
def Obligations.ScheduleRecurrence : Prop :=
  ∀ B : List Byte, B.length = 64 →
    (schedule B).length = 64 ∧
    (∀ t, t < 16 → ∀ b0 b1 b2 b3 : Byte, B[4 * t]? = some b0 → B[4 * t + 1]? = some b1 → B[4 * t + 2]? = some b2 →
      B[4 * t + 3]? = some b3 → (schedule B)[t]? = some (be32Pack b0 b1 b2 b3)) ∧
    (∀ t, 16 ≤ t → t < 64 → ∀ w2 w7 w15 w16 : Word, (schedule B)[t - 2]? = some w2 → (schedule B)[t - 7]? = some w7 →
      (schedule B)[t - 15]? = some w15 → (schedule B)[t - 16]? = some w16 →
      (schedule B)[t]? = some (ssig1 w2 + w7 + ssig0 w15 + w16))

/-- COMPRESS (R136, with R133, R134, R135): there are working variables v 0, ..., v 64 that start as the state words in
index order, follow ROUND t with K[t] and W[t] for t in 0..63, and are added back to the state words. -/
def Obligations.CompressRunsTheRounds : Prop :=
  ∀ (S : Vector Word 8) (B : List Byte), B.length = 64 → ∃ v : Nat → Working,
    v 0 = ⟨S[0], S[1], S[2], S[3], S[4], S[5], S[6], S[7]⟩ ∧
    (∀ t, t < 64 → ∃ k w : Word, kTable[t]? = some k ∧ (schedule B)[t]? = some w ∧
      let T1 := (v t).h + bsig1 (v t).e + ch (v t).e (v t).f (v t).g + k + w
      let T2 := bsig0 (v t).a + maj (v t).a (v t).b (v t).c
      v (t + 1) = ⟨T1 + T2, (v t).a, (v t).b, (v t).c, (v t).d + T1, (v t).e, (v t).f, (v t).g⟩) ∧
    compress S B = #v[S[0] + (v 64).a, S[1] + (v 64).b, S[2] + (v 64).c, S[3] + (v 64).d,
                      S[4] + (v 64).e, S[5] + (v 64).f, S[6] + (v 64).g, S[7] + (v 64).h]

/-- The first 64 primes, p(0) to p(63) (R102). -/
abbrev Sys2Proof.romPrimes : List Nat :=
  [2, 3, 5, 7, 11, 13, 17, 19, 23, 29, 31, 37, 41, 43, 47, 53, 59, 61, 67, 71, 73, 79, 83, 89, 97, 101, 103, 107, 109, 113,
   127, 131] ++
  [137, 139, 149, 151, 157, 163, 167, 173, 179, 181, 191, 193, 197, 199, 211, 223, 227, 229, 233, 239, 241, 251, 257, 263,
   269, 271, 277, 281, 283, 293, 307, 311]

/-- The ROM recomputed (R102, R103): K[t] is ⌊cbrt(p(t) × 2^96)⌋ mod 2^32 and IV[i] is ⌊sqrt(p(i) × 2^64)⌋ mod 2^32. -/
def Obligations.RomFromPrimes : Prop :=
  kTable.length = 64 ∧
  (∀ t : Fin 64, ∃ q : Fin 7, let r := q.val * 2 ^ 32 + (kTable.getD t 0).toNat
    r ^ 3 ≤ romPrimes.getD t 0 * 2 ^ 96 ∧ romPrimes.getD t 0 * 2 ^ 96 < (r + 1) ^ 3) ∧
  (∀ i : Fin 8, ∃ q : Fin 5, let r := q.val * 2 ^ 32 + (iv[i]).toNat
    r ^ 2 ≤ romPrimes.getD i 0 * 2 ^ 64 ∧ romPrimes.getD i 0 * 2 ^ 64 < (r + 1) ^ 2)
end

