-- ==== Sys2Proof/Laws/Memory.lean ====
section
/-! SUPPORT. The laws of the byte memory `buffer`: a read after a write, and that every operation keeps the canonical
form. -/

namespace Sys2Proof.Machine

/-! ### Reads after writes -/

theorem Memory.read_write (m : Memory) (a : Nat) (v : Byte) (j : Nat) :
    (m.write a v).read j = if j = a then some v else m.read j := by
  induction m with
  | nil => by_cases h : j = a <;> simp [Memory.write, Memory.read, h]
  | cons c m ih =>
    obtain ⟨b, w⟩ := c
    unfold Memory.write
    split
    · simp [Memory.read]
    · split
      · rename_i h; subst h
        by_cases h : j = a <;> simp [Memory.read, h]
      · rename_i hne
        by_cases h : j = b
        · have hja : j ≠ a := by omega
          simp [Memory.read, h]
          intro h'; omega
        · simp [Memory.read, h, ih]

@[simp] theorem Memory.read_write_same (m : Memory) (a : Nat) (v : Byte) : (m.write a v).read a = some v := by
  simp [Memory.read_write]

theorem Memory.read_write_other (m : Memory) (v : Byte) {a j : Nat} (h : j ≠ a) : (m.write a v).read j = m.read j := by
  simp [Memory.read_write, h]

/-- A read after a write of consecutive bytes: the written byte inside the range, the old one outside. -/
theorem Memory.read_writeBytes (m : Memory) (a : Nat) (vs : List Byte) (j : Nat) :
    (m.writeBytes a vs).read j = if a ≤ j ∧ j < a + vs.length then vs[j - a]? else m.read j := by
  induction vs generalizing m a with
  | nil =>
    have : ¬ (a ≤ j ∧ j < a + 0) := by omega
    simp [Memory.writeBytes]
  | cons v vs ih =>
    simp only [Memory.writeBytes, ih, Memory.read_write, List.length_cons]
    by_cases h : j = a
    · subst h; simp
    · by_cases h2 : a + 1 ≤ j ∧ j < a + 1 + vs.length
      · have h3 : a ≤ j ∧ j < a + (vs.length + 1) := by omega
        have h4 : j - a = (j - (a + 1)) + 1 := by omega
        simp [h2, h3, h4]
      · have h3 : ¬ (a ≤ j ∧ j < a + (vs.length + 1)) := by omega
        rw [if_neg h2, if_neg h, if_neg h3]

theorem Memory.read_zeroFill (m : Memory) (lo hi j : Nat) :
    (m.zeroFill lo hi).read j = if lo ≤ j ∧ j ≤ hi then some 0 else m.read j := by
  simp only [Memory.zeroFill, Memory.read_writeBytes, List.length_replicate]
  by_cases h : lo ≤ j ∧ j ≤ hi
  · have h2 : lo ≤ j ∧ j < lo + (hi + 1 - lo) := by omega
    have h3 : j - lo < hi + 1 - lo := by omega
    simp [h, h2, h3]
  · have h2 : ¬ (lo ≤ j ∧ j < lo + (hi + 1 - lo)) := by omega
    simp [h, h2]

theorem Memory.read_write64 (m : Memory) (a : Nat) (v : Word64) (j : Nat) :
    (m.write64 a v).read j = if a ≤ j ∧ j < a + 8 then (be64Unpack v)[j - a]? else m.read j := by
  simp [Memory.write64, Memory.read_writeBytes, be64Unpack]

/-! ### Reading several bytes -/

/-- `readBytes` answers exactly when every byte of the range has a value, and lists those values in order. -/
theorem Memory.readBytes_eq_some (m : Memory) (a n : Nat) (bs : List Byte) :
    m.readBytes a n = some bs ↔ bs.length = n ∧ ∀ k, k < n → m.read (a + k) = bs[k]? := by
  induction n generalizing a bs with
  | zero => cases bs <;> simp [Memory.readBytes]
  | succ n ih =>
    constructor
    · intro h
      simp only [Memory.readBytes] at h
      split at h
      · rename_i b bs' hb hbs
        cases h
        obtain ⟨hl, hk⟩ := (ih _ _).1 hbs
        refine ⟨by simp [hl], fun k hk' => ?_⟩
        cases k with
        | zero => simpa using hb
        | succ k =>
          have := hk k (by omega)
          simpa [Nat.add_assoc, Nat.add_comm 1 k] using this
      · cases h
    · rintro ⟨hl, hk⟩
      cases bs with
      | nil => simp at hl
      | cons b bs =>
        have h0 : m.read a = some b := by simpa using hk 0 (by omega)
        have h1 : m.readBytes (a + 1) n = some bs := by
          refine (ih _ _).2 ⟨by simpa using hl, fun k hk' => ?_⟩
          have := hk (k + 1) (by omega)
          simpa [Nat.add_assoc, Nat.add_comm 1 k] using this
        simp [Memory.readBytes, h0, h1]

/-- `readBytes` is absent exactly when some byte of the range has no value. -/
theorem Memory.readBytes_eq_none (m : Memory) (a n : Nat) :
    m.readBytes a n = none ↔ ∃ k, k < n ∧ m.read (a + k) = none := by
  induction n generalizing a with
  | zero => simp [Memory.readBytes]
  | succ n ih =>
    simp only [Memory.readBytes]
    cases h0 : m.read a with
    | none => simpa using ⟨0, by omega, h0⟩
    | some b =>
      cases h1 : m.readBytes (a + 1) n with
      | none =>
        obtain ⟨k, hk, hr⟩ := (ih _).1 h1
        simpa using ⟨k + 1, by omega, by rw [← hr]; congr 1; omega⟩
      | some bs =>
        obtain ⟨hl, hk⟩ := (Memory.readBytes_eq_some _ _ _ _).1 h1
        simp only [reduceCtorEq, false_iff, not_exists, not_and]
        intro k hkn
        cases k with
        | zero => simp [h0]
        | succ k =>
          have := hk k (by omega)
          rw [show a + (k + 1) = a + 1 + k by omega, this]
          simp [hl]; omega

/-- The block is read from the byte values alone. -/
theorem Memory.block_congr {m m' : Memory} (h : ∀ j, j < 64 → m.read j = m'.read j) : m.block = m'.block := by
  cases hb : m.block with
  | some B =>
    obtain ⟨hl, hk⟩ := (Memory.readBytes_eq_some _ _ _ _).1 hb
    refine ((Memory.readBytes_eq_some _ _ _ _).2 ⟨hl, fun k hk' => ?_⟩).symm
    rw [← hk k hk', ← h _ (by omega)]
  | none =>
    obtain ⟨k, hk, hr⟩ := (Memory.readBytes_eq_none _ _ _).1 hb
    refine ((Memory.readBytes_eq_none _ _ _).2 ⟨k, hk, ?_⟩).symm
    rw [← hr, ← h _ (by omega)]

theorem Memory.block_isSome {m : Memory} (h : ∀ j, j < 64 → (m.read j).isSome = true) : ∃ B, m.block = some B := by
  cases hb : m.block with
  | some B => exact ⟨B, rfl⟩
  | none =>
    obtain ⟨k, hk, hr⟩ := (Memory.readBytes_eq_none _ _ _).1 hb
    have hk' := h (0 + k) (by omega)
    rw [hr] at hk'
    cases hk'

theorem Memory.length_of_block {m : Memory} {B : List Byte} (h : m.block = some B) : B.length = 64 :=
  ((Memory.readBytes_eq_some _ _ _ _).1 h).1

/-! ### The canonical form -/

theorem Memory.wfFrom_mono {lo lo' : Nat} {m : Memory} (hle : lo' ≤ lo) (h : m.wfFrom lo = true) :
    m.wfFrom lo' = true := by
  cases m with
  | nil => rfl
  | cons c m =>
    simp only [Memory.wfFrom, Bool.and_eq_true, decide_eq_true_eq] at h ⊢
    exact ⟨⟨by omega, h.1.2⟩, h.2⟩

theorem Memory.wfFrom_write {lo a : Nat} {m : Memory} {v : Byte} (ha : a < 64) (hlo : lo ≤ a)
    (h : m.wfFrom lo = true) : (m.write a v).wfFrom lo = true := by
  induction m generalizing lo with
  | nil => simp [Memory.write, Memory.wfFrom, ha, hlo]
  | cons c m ih =>
    obtain ⟨b, w⟩ := c
    simp only [Memory.wfFrom, Bool.and_eq_true, decide_eq_true_eq] at h
    unfold Memory.write
    split
    · rename_i hab
      simp [Memory.wfFrom, ha, hlo, h.1.2, h.2]; omega
    · split
      · rename_i hab; subst hab
        simp [Memory.wfFrom, h]
      · rename_i hab
        simp [Memory.wfFrom, h.1, ih (lo := b + 1) (by omega) h.2]

theorem Memory.wf_write {m : Memory} {a : Nat} {v : Byte} (ha : a < 64) (h : m.wf = true) : (m.write a v).wf = true :=
  Memory.wfFrom_write ha (Nat.zero_le _) h

theorem Memory.wf_writeBytes {m : Memory} {a : Nat} {vs : List Byte} (ha : a + vs.length ≤ 64) (h : m.wf = true) :
    (m.writeBytes a vs).wf = true := by
  induction vs generalizing m a with
  | nil => exact h
  | cons v vs ih =>
    simp only [List.length_cons] at ha
    exact ih (by omega) (Memory.wf_write (by omega) h)

theorem Memory.wf_zeroFill {m : Memory} {lo hi : Nat} (hhi : hi < 64) (h : m.wf = true) :
    (m.zeroFill lo hi).wf = true := by
  by_cases hlo : lo ≤ hi
  · exact Memory.wf_writeBytes (by simp; omega) h
  · have : hi + 1 - lo = 0 := by omega
    simpa [Memory.zeroFill, this, Memory.writeBytes] using h

theorem Memory.wf_write64 {m : Memory} {a : Nat} {v : Word64} (ha : a + 8 ≤ 64) (h : m.wf = true) :
    (m.write64 a v).wf = true :=
  Memory.wf_writeBytes (by simpa [be64Unpack] using ha) h

theorem Memory.wf_reset : State.reset.buffer.wf = true := rfl

/-- Two canonical memories that read alike are the same list. -/
theorem Memory.wfFrom_ext {lo : Nat} {m m' : Memory} (h : m.wfFrom lo = true) (h' : m'.wfFrom lo = true)
    (hr : ∀ j, m.read j = m'.read j) : m = m' := by
  have below : ∀ {lo : Nat} {m : Memory}, m.wfFrom lo = true → ∀ j, j < lo → m.read j = none := by
    intro lo m hm
    induction m generalizing lo with
    | nil => intro j _; rfl
    | cons c m ih =>
      obtain ⟨b, w⟩ := c
      simp only [Memory.wfFrom, Bool.and_eq_true, decide_eq_true_eq] at hm
      intro j hj
      have : j ≠ b := by omega
      simp [Memory.read, this, ih hm.2 j (by omega)]
  induction m generalizing lo m' with
  | nil =>
    cases m' with
    | nil => rfl
    | cons c m' => have := hr c.1; simp [Memory.read] at this
  | cons c m ih =>
    obtain ⟨b, w⟩ := c
    cases m' with
    | nil => have := hr b; simp [Memory.read] at this
    | cons c' m' =>
      obtain ⟨b', w'⟩ := c'
      simp only [Memory.wfFrom, Bool.and_eq_true, decide_eq_true_eq] at h h'
      have hb : b = b' := by
        rcases Nat.lt_trichotomy b b' with hlt | heq | hgt
        · have h1 := hr b
          rw [below (m := (b', w') :: m') (lo := b') (by simp [Memory.wfFrom, h'.1.2, h'.2]) b hlt] at h1
          simp [Memory.read] at h1
        · exact heq
        · have h1 := hr b'
          rw [below (m := (b, w) :: m) (lo := b) (by simp [Memory.wfFrom, h.1.2, h.2]) b' hgt] at h1
          simp [Memory.read] at h1
      subst hb
      have hw : w = w' := by have := hr b; simpa [Memory.read] using this
      subst hw
      have : m = m' := by
        refine ih h.2 h'.2 fun j => ?_
        by_cases hj : j = b
        · rw [below h.2 j (by omega), below h'.2 j (by omega)]
        · have := hr j; simpa [Memory.read, hj] using this
      rw [this]

theorem Memory.wf_ext {m m' : Memory} (h : m.wf = true) (h' : m'.wf = true) (hr : ∀ j, m.read j = m'.read j) :
    m = m' :=
  Memory.wfFrom_ext h h' hr

end Sys2Proof.Machine
end

