-- ==== Sys2Proof/Laws/State.lean ====
section
/-! SUPPORT. One lemma for each field under each named update of the state, so that no later proof unfolds a record
update. -/

namespace Sys2Proof.Machine

variable (s : State)

/-! ### setInputs -/

@[simp] theorem State.setInputs_words (ps : List PortInput) : (s.setInputs ps).words = s.words := rfl
@[simp] theorem State.setInputs_buffer (ps : List PortInput) : (s.setInputs ps).buffer = s.buffer := rfl
@[simp] theorem State.setInputs_bufferLen (ps : List PortInput) : (s.setInputs ps).bufferLen = s.bufferLen := rfl
@[simp] theorem State.setInputs_totalBits (ps : List PortInput) : (s.setInputs ps).totalBits = s.totalBits := rfl
@[simp] theorem State.setInputs_phase (ps : List PortInput) : (s.setInputs ps).phase = s.phase := rfl
@[simp] theorem State.setInputs_fault (ps : List PortInput) : (s.setInputs ps).fault = s.fault := rfl
@[simp] theorem State.setInputs_faultCause (ps : List PortInput) : (s.setInputs ps).faultCause = s.faultCause := rfl
@[simp] theorem State.setInputs_digest (ps : List PortInput) : (s.setInputs ps).digest = s.digest := rfl
@[simp] theorem State.setInputs_digestValid (ps : List PortInput) : (s.setInputs ps).digestValid = s.digestValid := rfl
@[simp] theorem State.setInputs_inputs (ps : List PortInput) : (s.setInputs ps).inputs = ps := rfl

/-! ### setBuffer -/

@[simp] theorem State.setBuffer_words (m : Memory) : (s.setBuffer m).words = s.words := rfl
@[simp] theorem State.setBuffer_buffer (m : Memory) : (s.setBuffer m).buffer = m := rfl
@[simp] theorem State.setBuffer_bufferLen (m : Memory) : (s.setBuffer m).bufferLen = s.bufferLen := rfl
@[simp] theorem State.setBuffer_totalBits (m : Memory) : (s.setBuffer m).totalBits = s.totalBits := rfl
@[simp] theorem State.setBuffer_phase (m : Memory) : (s.setBuffer m).phase = s.phase := rfl
@[simp] theorem State.setBuffer_fault (m : Memory) : (s.setBuffer m).fault = s.fault := rfl
@[simp] theorem State.setBuffer_faultCause (m : Memory) : (s.setBuffer m).faultCause = s.faultCause := rfl
@[simp] theorem State.setBuffer_digest (m : Memory) : (s.setBuffer m).digest = s.digest := rfl
@[simp] theorem State.setBuffer_digestValid (m : Memory) : (s.setBuffer m).digestValid = s.digestValid := rfl
@[simp] theorem State.setBuffer_inputs (m : Memory) : (s.setBuffer m).inputs = s.inputs := rfl

/-! ### setWords -/

@[simp] theorem State.setWords_words (w : Vector Word 8) : (s.setWords w).words = w := rfl
@[simp] theorem State.setWords_buffer (w : Vector Word 8) : (s.setWords w).buffer = s.buffer := rfl
@[simp] theorem State.setWords_bufferLen (w : Vector Word 8) : (s.setWords w).bufferLen = s.bufferLen := rfl
@[simp] theorem State.setWords_totalBits (w : Vector Word 8) : (s.setWords w).totalBits = s.totalBits := rfl
@[simp] theorem State.setWords_phase (w : Vector Word 8) : (s.setWords w).phase = s.phase := rfl
@[simp] theorem State.setWords_fault (w : Vector Word 8) : (s.setWords w).fault = s.fault := rfl
@[simp] theorem State.setWords_faultCause (w : Vector Word 8) : (s.setWords w).faultCause = s.faultCause := rfl
@[simp] theorem State.setWords_digest (w : Vector Word 8) : (s.setWords w).digest = s.digest := rfl
@[simp] theorem State.setWords_digestValid (w : Vector Word 8) : (s.setWords w).digestValid = s.digestValid := rfl
@[simp] theorem State.setWords_inputs (w : Vector Word 8) : (s.setWords w).inputs = s.inputs := rfl

/-! ### setTotalBits -/

@[simp] theorem State.setTotalBits_words (L : Word64) : (s.setTotalBits L).words = s.words := rfl
@[simp] theorem State.setTotalBits_buffer (L : Word64) : (s.setTotalBits L).buffer = s.buffer := rfl
@[simp] theorem State.setTotalBits_bufferLen (L : Word64) : (s.setTotalBits L).bufferLen = s.bufferLen := rfl
@[simp] theorem State.setTotalBits_totalBits (L : Word64) : (s.setTotalBits L).totalBits = L := rfl
@[simp] theorem State.setTotalBits_phase (L : Word64) : (s.setTotalBits L).phase = s.phase := rfl
@[simp] theorem State.setTotalBits_fault (L : Word64) : (s.setTotalBits L).fault = s.fault := rfl
@[simp] theorem State.setTotalBits_faultCause (L : Word64) : (s.setTotalBits L).faultCause = s.faultCause := rfl
@[simp] theorem State.setTotalBits_digest (L : Word64) : (s.setTotalBits L).digest = s.digest := rfl
@[simp] theorem State.setTotalBits_digestValid (L : Word64) : (s.setTotalBits L).digestValid = s.digestValid := rfl
@[simp] theorem State.setTotalBits_inputs (L : Word64) : (s.setTotalBits L).inputs = s.inputs := rfl

/-! ### openSession -/

@[simp] theorem State.openSession_words : s.openSession.words = iv := rfl
@[simp] theorem State.openSession_buffer : s.openSession.buffer = s.buffer := rfl
@[simp] theorem State.openSession_bufferLen : s.openSession.bufferLen = 0 := rfl
@[simp] theorem State.openSession_totalBits : s.openSession.totalBits = 0 := rfl
@[simp] theorem State.openSession_phase : s.openSession.phase = .initialized := rfl
@[simp] theorem State.openSession_fault : s.openSession.fault = s.fault := rfl
@[simp] theorem State.openSession_faultCause : s.openSession.faultCause = s.faultCause := rfl
@[simp] theorem State.openSession_digest : s.openSession.digest = s.digest := rfl
@[simp] theorem State.openSession_digestValid : s.openSession.digestValid = false := rfl
@[simp] theorem State.openSession_inputs : s.openSession.inputs = s.inputs := rfl

/-! ### nextByte -/

@[simp] theorem State.nextByte_words : s.nextByte.words = s.words := rfl
@[simp] theorem State.nextByte_buffer : s.nextByte.buffer = s.buffer := rfl
@[simp] theorem State.nextByte_bufferLen : s.nextByte.bufferLen = s.bufferLen + 1 := rfl
@[simp] theorem State.nextByte_totalBits : s.nextByte.totalBits = s.totalBits := rfl
@[simp] theorem State.nextByte_phase : s.nextByte.phase = .accepting := rfl
@[simp] theorem State.nextByte_fault : s.nextByte.fault = s.fault := rfl
@[simp] theorem State.nextByte_faultCause : s.nextByte.faultCause = s.faultCause := rfl
@[simp] theorem State.nextByte_digest : s.nextByte.digest = s.digest := rfl
@[simp] theorem State.nextByte_digestValid : s.nextByte.digestValid = s.digestValid := rfl
@[simp] theorem State.nextByte_inputs : s.nextByte.inputs = s.inputs := rfl

/-! ### nextBlock -/

@[simp] theorem State.nextBlock_words : s.nextBlock.words = s.words := rfl
@[simp] theorem State.nextBlock_buffer : s.nextBlock.buffer = s.buffer := rfl
@[simp] theorem State.nextBlock_bufferLen : s.nextBlock.bufferLen = 0 := rfl
@[simp] theorem State.nextBlock_totalBits : s.nextBlock.totalBits = add64 s.totalBits 512 := rfl
@[simp] theorem State.nextBlock_phase : s.nextBlock.phase = .accepting := rfl
@[simp] theorem State.nextBlock_fault : s.nextBlock.fault = s.fault := rfl
@[simp] theorem State.nextBlock_faultCause : s.nextBlock.faultCause = s.faultCause := rfl
@[simp] theorem State.nextBlock_digest : s.nextBlock.digest = s.digest := rfl
@[simp] theorem State.nextBlock_digestValid : s.nextBlock.digestValid = s.digestValid := rfl
@[simp] theorem State.nextBlock_inputs : s.nextBlock.inputs = s.inputs := rfl

/-! ### closeSession -/

@[simp] theorem State.closeSession_words : s.closeSession.words = s.words := rfl
@[simp] theorem State.closeSession_buffer : s.closeSession.buffer = s.buffer := rfl
@[simp] theorem State.closeSession_bufferLen : s.closeSession.bufferLen = 0 := rfl
@[simp] theorem State.closeSession_totalBits : s.closeSession.totalBits = s.totalBits := rfl
@[simp] theorem State.closeSession_phase : s.closeSession.phase = .finalized := rfl
@[simp] theorem State.closeSession_fault : s.closeSession.fault = s.fault := rfl
@[simp] theorem State.closeSession_faultCause : s.closeSession.faultCause = s.faultCause := rfl
@[simp] theorem State.closeSession_digest : s.closeSession.digest = serialize s.words := rfl
@[simp] theorem State.closeSession_digestValid : s.closeSession.digestValid = true := rfl
@[simp] theorem State.closeSession_inputs : s.closeSession.inputs = s.inputs := rfl

/-! ### raiseFault -/

@[simp] theorem State.raiseFault_words (c : FaultCause) : (s.raiseFault c).words = s.words := rfl
@[simp] theorem State.raiseFault_buffer (c : FaultCause) : (s.raiseFault c).buffer = s.buffer := rfl
@[simp] theorem State.raiseFault_bufferLen (c : FaultCause) : (s.raiseFault c).bufferLen = s.bufferLen := rfl
@[simp] theorem State.raiseFault_totalBits (c : FaultCause) : (s.raiseFault c).totalBits = s.totalBits := rfl
@[simp] theorem State.raiseFault_phase (c : FaultCause) : (s.raiseFault c).phase = s.phase := rfl
@[simp] theorem State.raiseFault_fault (c : FaultCause) : (s.raiseFault c).fault = true := rfl
@[simp] theorem State.raiseFault_faultCause (c : FaultCause) : (s.raiseFault c).faultCause = c := rfl
@[simp] theorem State.raiseFault_digest (c : FaultCause) : (s.raiseFault c).digest = s.digest := rfl
@[simp] theorem State.raiseFault_digestValid (c : FaultCause) : (s.raiseFault c).digestValid = s.digestValid := rfl
@[simp] theorem State.raiseFault_inputs (c : FaultCause) : (s.raiseFault c).inputs = s.inputs := rfl

/-! ### resetEvent: the reset state with the samples still to come -/

@[simp] theorem State.resetEvent_buffer : s.resetEvent.buffer = [] := rfl
@[simp] theorem State.resetEvent_phase : s.resetEvent.phase = .uninitialized := rfl
@[simp] theorem State.resetEvent_fault : s.resetEvent.fault = false := rfl
@[simp] theorem State.resetEvent_faultCause : s.resetEvent.faultCause = .none := rfl
@[simp] theorem State.resetEvent_digestValid : s.resetEvent.digestValid = false := rfl
@[simp] theorem State.resetEvent_inputs : s.resetEvent.inputs = s.inputs := rfl

/-! ### Updates of one field after another -/

@[simp] theorem State.setInputs_setInputs (ps qs : List PortInput) :
    (s.setInputs ps).setInputs qs = s.setInputs qs := rfl
@[simp] theorem State.setInputs_self : s.setInputs s.inputs = s := rfl
@[simp] theorem State.setBuffer_self : s.setBuffer s.buffer = s := rfl
@[simp] theorem State.setBuffer_setBuffer (m m' : Memory) : (s.setBuffer m).setBuffer m' = s.setBuffer m' := rfl
@[simp] theorem State.setWords_setWords (w w' : Vector Word 8) : (s.setWords w).setWords w' = s.setWords w' := rfl

end Sys2Proof.Machine
end

