-- ==== Sys2Proof/Laws/Ops.lean ====
section
/-! SUPPORT. One lemma for each shared operation that says once everything it can do; later proofs cite these and do not
unfold the operations. -/

namespace Sys2Proof.Machine

/-! ### Admission checks (R196) -/

theorem unlessFaulted_of_fault {s : State} (h : s.fault = true) (body : Outcome) : unlessFaulted s body = .next s := by
  simp [unlessFaulted, h]

@[simp] theorem unlessFaulted_of_live {s : State} (h : s.fault = false) (body : Outcome) :
    unlessFaulted s body = body := by
  simp [unlessFaulted, h]

theorem requireSession_of_open {s : State} (h : s.phase.inSession = true) (body : Outcome) :
    requireSession s body = body := by
  simp [requireSession, h]

theorem requireSession_of_closed {s : State} (h : s.phase.inSession = false) (body : Outcome) :
    requireSession s body = .next (s.raiseFault .contractViolation) := by
  simp [requireSession, h]

theorem lengthExhausted_iff (s : State) :
    lengthExhausted s = true ↔ s.bufferLen = 63 ∧ s.totalBits = BitVec.ofNat 64 (2 ^ 64 - 512) := by
  simp [lengthExhausted]

theorem requireRoom_of_room {s : State} (h : lengthExhausted s = false) (body : Outcome) : requireRoom s body = body := by
  simp [requireRoom, h]

theorem requireRoom_of_exhausted {s : State} (h : lengthExhausted s = true) (body : Outcome) :
    requireRoom s body = .next (s.raiseFault .lengthOverflow) := by
  simp [requireRoom, h]

/-! ### COMPRESS on the registers (R130) -/

/-- COMPRESS changes `words` alone, and only from a block whose 64 bytes all have a value. -/
theorem compressBuffer_eq_some {s t : State} :
    compressBuffer s = some t ↔ ∃ B, s.buffer.block = some B ∧ t = s.setWords (compress s.words B) := by
  unfold compressBuffer
  cases h : s.buffer.block with
  | some B => simp [eq_comm]
  | none => simp

theorem compressBuffer_eq_none {s : State} : compressBuffer s = none ↔ s.buffer.block = none := by
  unfold compressBuffer
  cases h : s.buffer.block <;> simp

/-- A command that runs COMPRESS goes on to a next state exactly when COMPRESS answers. -/
theorem complete_eq_next {o : Option State} {t : State} : complete o = .next t ↔ o = some t := by
  cases o <;> simp [complete]

theorem complete_ne_refused {o : Option State} {r : Refusal} : complete o ≠ .refused r := by
  cases o <;> simp [complete]

theorem complete_eq_fault {o : Option State} {r : Fault} : complete o = .fault r ↔ o = none := by
  cases o <;> cases r <;> simp [complete]

/-- `compressBuffer_eq_some` for a buffer just replaced. -/
theorem compressBuffer_setBuffer {s t : State} {m : Memory} :
    compressBuffer (s.setBuffer m) = some t ↔
      ∃ B, m.block = some B ∧ t = (s.setBuffer m).setWords (compress s.words B) := by
  rw [compressBuffer_eq_some, State.setBuffer_buffer, State.setBuffer_words]

/-! ### ABSORB and FINAL, once admitted -/

/-- Everything ABSORB's effect can be: the byte is stored; a block that is not full only counts on; a full block is
compressed (R162). -/
theorem absorbByte_cases {b : Byte} {s t : State} (h : absorbByte b s = some t) :
    (s.bufferLen ≠ 63 ∧ t = (s.setBuffer (s.buffer.write s.bufferLen.toNat b)).nextByte) ∨
    (s.bufferLen = 63 ∧ ∃ B, (s.buffer.write 63 b).block = some B ∧
      t = ((s.setBuffer (s.buffer.write 63 b)).setWords (compress s.words B)).nextBlock) := by
  unfold absorbByte at h
  split at h
  · rename_i h63
    obtain ⟨u, hu, rfl⟩ := Option.map_eq_some_iff.1 h
    obtain ⟨B, hB, rfl⟩ := compressBuffer_setBuffer.1 hu
    simp only [h63, BitVec.reduceToNat] at hB ⊢
    exact .inr ⟨trivial, B, hB, rfl⟩
  · rename_i h63
    exact .inl ⟨h63, by simpa using h.symm⟩

/-! ### The buffers PAD builds, byte by byte (R152 to R155) -/

theorem read_markedBuffer (s : State) (j : Nat) :
    (markedBuffer s).read j = if j = s.bufferLen.toNat then some 0x80 else s.buffer.read j :=
  Memory.read_write _ _ _ _

theorem read_onlyPadBuffer (s : State) (j : Nat) :
    (onlyPadBuffer s).read j =
      if 56 ≤ j ∧ j < 64 then (be64Unpack (messageBits s))[j - 56]?
      else if s.bufferLen.toNat + 1 ≤ j ∧ j ≤ 55 then some 0
      else if j = s.bufferLen.toNat then some 0x80 else s.buffer.read j := by
  simp only [onlyPadBuffer, Memory.read_write64, Memory.read_zeroFill, read_markedBuffer]

theorem read_firstPadBuffer (s : State) (j : Nat) :
    (firstPadBuffer s).read j =
      if s.bufferLen.toNat + 1 ≤ j ∧ j ≤ 63 then some 0
      else if j = s.bufferLen.toNat then some 0x80 else s.buffer.read j := by
  simp only [firstPadBuffer, Memory.read_zeroFill, read_markedBuffer]

theorem read_secondPadBuffer (s : State) (j : Nat) :
    (secondPadBuffer s).read j =
      if 56 ≤ j ∧ j < 64 then (be64Unpack (messageBits s))[j - 56]?
      else if 0 ≤ j ∧ j ≤ 63 then some 0 else (firstPadBuffer s).read j := by
  simp only [secondPadBuffer, Memory.read_write64, Memory.read_zeroFill]

theorem wf_markedBuffer {s : State} (h : s.buffer.wf = true) : (markedBuffer s).wf = true :=
  Memory.wf_write s.bufferLen.isLt h

theorem wf_onlyPadBuffer {s : State} (h : s.buffer.wf = true) : (onlyPadBuffer s).wf = true :=
  Memory.wf_write64 (by omega) (Memory.wf_zeroFill (by omega) (wf_markedBuffer h))

theorem wf_firstPadBuffer {s : State} (h : s.buffer.wf = true) : (firstPadBuffer s).wf = true :=
  Memory.wf_zeroFill (by omega) (wf_markedBuffer h)

theorem wf_secondPadBuffer {s : State} (h : s.buffer.wf = true) : (secondPadBuffer s).wf = true :=
  Memory.wf_write64 (by omega) (Memory.wf_zeroFill (by omega) (wf_firstPadBuffer h))

/-- Everything PAD can be: one block, or two (R153, R154). -/
theorem pad_cases {s t : State} (h : pad s = some t) :
    (s.bufferLen.toNat ≤ 55 ∧ ∃ B, (onlyPadBuffer s).block = some B ∧
      t = ((s.setTotalBits (messageBits s)).setBuffer (onlyPadBuffer s)).setWords (compress s.words B)) ∨
    (55 < s.bufferLen.toNat ∧ ∃ B1 B2, (firstPadBuffer s).block = some B1 ∧ (secondPadBuffer s).block = some B2 ∧
      t = ((s.setTotalBits (messageBits s)).setBuffer (secondPadBuffer s)).setWords
        (compress (compress s.words B1) B2)) := by
  unfold pad at h
  split at h
  · rename_i hn
    obtain ⟨B, hB, rfl⟩ := compressBuffer_setBuffer.1 h
    exact .inl ⟨hn, B, hB, by rw [State.setTotalBits_words]⟩
  · rename_i hn
    split at h
    · rename_i u hu
      obtain ⟨B1, hB1, rfl⟩ := compressBuffer_setBuffer.1 hu
      obtain ⟨B2, hB2, rfl⟩ := compressBuffer_setBuffer.1 h
      refine .inr ⟨by omega, B1, B2, hB1, hB2, ?_⟩
      rw [State.setWords_words, State.setTotalBits_words]
      rfl
    · cases h

/-- The one-block case answers (R153). -/
theorem pad_one {s : State} {B : List Byte} (hn : s.bufferLen.toNat ≤ 55) (hB : (onlyPadBuffer s).block = some B) :
    pad s = some (((s.setTotalBits (messageBits s)).setBuffer (onlyPadBuffer s)).setWords (compress s.words B)) := by
  rw [pad, if_pos hn, compressBuffer_setBuffer]
  exact ⟨B, hB, by rw [State.setTotalBits_words]⟩

/-- The two-block case answers (R154). -/
theorem pad_two {s : State} {B1 B2 : List Byte} (hn : 55 < s.bufferLen.toNat) (hB1 : (firstPadBuffer s).block = some B1)
    (hB2 : (secondPadBuffer s).block = some B2) :
    pad s = some (((s.setTotalBits (messageBits s)).setBuffer (secondPadBuffer s)).setWords
      (compress (compress s.words B1) B2)) := by
  rw [pad, if_neg (by omega), compressBuffer_setBuffer.2 ⟨B1, hB1, rfl⟩]
  simp only [compressBuffer_setBuffer]
  exact ⟨B2, hB2, rfl⟩

/-- PAD answers when every byte of the tail has a value: the bytes from `bufferLen` on are written before they are
read (R66). -/
theorem pad_isSome {s : State} (h : ∀ j, j < s.bufferLen.toNat → (s.buffer.read j).isSome = true) :
    ∃ t, pad s = some t := by
  have hlen : ∀ j, j < 64 → 56 ≤ j → ((be64Unpack (messageBits s))[j - 56]?).isSome = true := by
    intro j h1 h2
    have : j - 56 < 8 := by omega
    simp [be64Unpack, this]
  unfold pad
  split
  · rename_i hn
    obtain ⟨B, hB⟩ := Memory.block_isSome (m := onlyPadBuffer s) (by
      intro j hj
      rw [read_onlyPadBuffer]
      split
      · exact hlen j hj (by omega)
      · split
        · rfl
        · split
          · rfl
          · exact h j (by omega))
    exact ⟨_, compressBuffer_setBuffer.2 ⟨B, hB, rfl⟩⟩
  · rename_i hn
    obtain ⟨B1, hB1⟩ := Memory.block_isSome (m := firstPadBuffer s) (by
      intro j hj
      rw [read_firstPadBuffer]
      split
      · rfl
      · split
        · rfl
        · exact h j (by omega))
    obtain ⟨B2, hB2⟩ := Memory.block_isSome (m := secondPadBuffer s) (by
      intro j hj
      rw [read_secondPadBuffer]
      split
      · exact hlen j hj (by omega)
      · have : 0 ≤ j ∧ j ≤ 63 := by omega
        simp [this])
    rw [compressBuffer_setBuffer.2 ⟨B1, hB1, rfl⟩]
    exact ⟨_, compressBuffer_setBuffer.2 ⟨B2, hB2, rfl⟩⟩

/-- ABSORB of a byte that does not fill the block (R162). -/
theorem absorbByte_partial {b : Byte} {s : State} (hn : s.bufferLen ≠ 63) :
    absorbByte b s = some (s.setBuffer (s.buffer.write s.bufferLen.toNat b)).nextByte := by
  rw [absorbByte, if_neg hn]

/-- ABSORB of the byte that fills the block (R162). -/
theorem absorbByte_full {b : Byte} {s : State} {B : List Byte} (hn : s.bufferLen = 63)
    (hB : (s.buffer.write 63 b).block = some B) :
    absorbByte b s = some ((s.setBuffer (s.buffer.write 63 b)).setWords (compress s.words B)).nextBlock := by
  rw [absorbByte, if_pos hn, hn, show BitVec.toNat (63 : BitVec 6) = 63 from rfl,
    compressBuffer_setBuffer.2 ⟨B, hB, rfl⟩, Option.map_some]

/-- Everything FINAL's effect can be: PAD, then the end of the session (R164). -/
theorem finalize_cases {s t : State} (h : finalize s = some t) : ∃ u, pad s = some u ∧ t = u.closeSession := by
  obtain ⟨u, hu, rfl⟩ := Option.map_eq_some_iff.1 h
  exact ⟨u, hu, rfl⟩

/-- L is the bits of the compressed blocks and of the tail (R151). -/
theorem messageBits_eq (s : State) : messageBits s = s.totalBits + BitVec.ofNat 64 (8 * s.bufferLen.toNat) := by
  rw [messageBits, add64, tailBits]
  congr 1

end Sys2Proof.Machine
end

