-- ==== Sys2Proof/Laws/Exec.lean ====
section
/-! SUPPORT. One inversion lemma for each meaning and for the step: if it answers a next state, then one of the listed
cases holds, guards included. -/

namespace Sys2Proof.Machine

@[simp] theorem exec_init (d : Byte) (s : State) : exec (.init d) s = execInit d s := rfl
@[simp] theorem exec_absorb (b : Byte) (s : State) : exec (.absorb b) s = execAbsorb b s := rfl
@[simp] theorem exec_final (d : Byte) (s : State) : exec (.final d) s = execFinal d s := rfl
@[simp] theorem exec_rsvd (d : Byte) (s : State) : exec (.rsvd d) s = execRsvd d s := rfl

/-- INIT: refused after a fault, else a fresh session (R161, R199). -/
theorem execInit_cases {d : Byte} {s t : State} (h : exec (.init d) s = .next t) :
    (s.fault = true ∧ t = s) ∨ (s.fault = false ∧ t = s.openSession) := by
  cases hf : s.fault
  · rw [exec_init, execInit, unlessFaulted_of_live hf] at h
    exact .inr ⟨rfl, by simpa using h.symm⟩
  · rw [exec_init, execInit, unlessFaulted_of_fault hf] at h
    exact .inl ⟨rfl, by simpa using h.symm⟩

/-- ABSORB: refused after a fault, ContractViolation outside a session, LengthOverflow at the bound, else its effect
(R162, R196). -/
theorem execAbsorb_cases {b : Byte} {s t : State} (h : exec (.absorb b) s = .next t) :
    (s.fault = true ∧ t = s) ∨
    (s.fault = false ∧ s.phase.inSession = false ∧ t = s.raiseFault .contractViolation) ∨
    (s.fault = false ∧ s.phase.inSession = true ∧ lengthExhausted s = true ∧ t = s.raiseFault .lengthOverflow) ∨
    (s.fault = false ∧ s.phase.inSession = true ∧ lengthExhausted s = false ∧ absorbByte b s = some t) := by
  cases hf : s.fault
  · rw [exec_absorb, execAbsorb, unlessFaulted_of_live hf] at h
    cases hp : s.phase.inSession
    · rw [requireSession_of_closed hp] at h
      exact .inr (.inl ⟨rfl, rfl, by simpa using h.symm⟩)
    · rw [requireSession_of_open hp] at h
      cases hl : lengthExhausted s
      · rw [requireRoom_of_room hl] at h
        exact .inr (.inr (.inr ⟨rfl, rfl, rfl, complete_eq_next.1 h⟩))
      · rw [requireRoom_of_exhausted hl] at h
        exact .inr (.inr (.inl ⟨rfl, rfl, rfl, by simpa using h.symm⟩))
  · rw [exec_absorb, execAbsorb, unlessFaulted_of_fault hf] at h
    exact .inl ⟨rfl, by simpa using h.symm⟩

/-- FINAL: refused after a fault, ContractViolation outside a session, else its effect (R164, R196). -/
theorem execFinal_cases {d : Byte} {s t : State} (h : exec (.final d) s = .next t) :
    (s.fault = true ∧ t = s) ∨
    (s.fault = false ∧ s.phase.inSession = false ∧ t = s.raiseFault .contractViolation) ∨
    (s.fault = false ∧ s.phase.inSession = true ∧ finalize s = some t) := by
  cases hf : s.fault
  · rw [exec_final, execFinal, unlessFaulted_of_live hf] at h
    cases hp : s.phase.inSession
    · rw [requireSession_of_closed hp] at h
      exact .inr (.inl ⟨rfl, rfl, by simpa using h.symm⟩)
    · rw [requireSession_of_open hp] at h
      exact .inr (.inr ⟨rfl, rfl, complete_eq_next.1 h⟩)
  · rw [exec_final, execFinal, unlessFaulted_of_fault hf] at h
    exact .inl ⟨rfl, by simpa using h.symm⟩

/-- The reserved encoding: refused after a fault, else IllegalCommand (R193, R199). -/
theorem execRsvd_cases {d : Byte} {s t : State} (h : exec (.rsvd d) s = .next t) :
    (s.fault = true ∧ t = s) ∨ (s.fault = false ∧ t = s.raiseFault .illegalCommand) := by
  cases hf : s.fault
  · rw [exec_rsvd, execRsvd, unlessFaulted_of_live hf] at h
    exact .inr ⟨rfl, by simpa using h.symm⟩
  · rw [exec_rsvd, execRsvd, unlessFaulted_of_fault hf] at h
    exact .inl ⟨rfl, by simpa using h.symm⟩

/-- ABSORB once admitted is its effect (R196). -/
theorem exec_absorb_of_admitted {b : Byte} {s : State} (hf : s.fault = false) (hp : s.phase.inSession = true)
    (hl : lengthExhausted s = false) : exec (.absorb b) s = complete (absorbByte b s) := by
  rw [exec_absorb, execAbsorb, unlessFaulted_of_live hf, requireSession_of_open hp, requireRoom_of_room hl]

/-- FINAL once admitted is its effect (R196). -/
theorem exec_final_of_admitted {d : Byte} {s : State} (hf : s.fault = false) (hp : s.phase.inSession = true) :
    exec (.final d) s = complete (finalize s) := by
  rw [exec_final, execFinal, unlessFaulted_of_live hf, requireSession_of_open hp]

/-- A step idles, resets, or runs the accepted command on the state without the sample it took. -/
theorem step_cases (s : State) :
    (s.inputs = [] ∧ step s = .next s) ∨
    (∃ p rest, s.inputs = p :: rest ∧ p.event = .idle ∧ step s = .next (s.setInputs rest)) ∨
    (∃ p rest, s.inputs = p :: rest ∧ p.event = .reset ∧ step s = .next (s.setInputs rest).resetEvent) ∨
    (∃ p rest w, s.inputs = p :: rest ∧ p.event = .command w ∧ step s = exec (decode w) (s.setInputs rest)) := by
  unfold step
  cases hi : s.inputs with
  | nil => exact .inl ⟨rfl, rfl⟩
  | cons p rest =>
    cases hp : p.event with
    | idle => exact .inr (.inl ⟨p, rest, rfl, hp, by simp [hp]⟩)
    | reset => exact .inr (.inr (.inl ⟨p, rest, rfl, hp, by simp [hp]⟩))
    | command w => exact .inr (.inr (.inr ⟨p, rest, w, rfl, hp, by simp [hp]⟩))

end Sys2Proof.Machine
end

