-- ==== Sys2Proof/Laws/Parameters.lean ====
section
/-! SUPPORT. The sizes of the machine's definitions are the parameters of spec/00_scope.md R5. -/

namespace Sys2Proof.Machine

@[simp] theorem length_kTable : kTable.length = Config.kWords := rfl

@[simp] theorem length_blockWords (B : List Byte) : (blockWords B).length = Config.blockWords := by
  simp [blockWords]

theorem length_extendSchedule (k : Nat) (W : List Word) : (extendSchedule k W).length = W.length + k := by
  induction k generalizing W with
  | zero => rfl
  | succ k ih => simp [extendSchedule, ih]; omega

@[simp] theorem length_schedule (B : List Byte) : (schedule B).length = Config.scheduleWords := by
  simp [schedule, length_extendSchedule]

/-- A round for each constant of the ROM: ROUNDS of them (R5). -/
theorem length_roundInputs (B : List Byte) : (kTable.zip (schedule B)).length = Config.rounds := by
  simp

@[simp] theorem length_be32Unpack (w : Word) : (be32Unpack w).length = 4 := rfl

@[simp] theorem length_be64Unpack (v : Word64) : (be64Unpack v).length = Config.lenBytes := rfl

theorem blockBits_eq : Config.blockBits = Config.blockBytes * 8 := rfl

theorem lenOffset_add_lenBytes : Config.lenOffset + Config.lenBytes = Config.blockBytes := rfl

theorem length_takeBlocks (k : Nat) (M : List Byte) : (takeBlocks k M).length = k := by
  induction k generalizing M with
  | zero => rfl
  | succ k ih => simp [takeBlocks, ih]

theorem length_padding (m : Nat) : (padding m).length = 9 + (119 - m % 64) % 64 := by
  simp [padding, Config.lenBytes]; omega

end Sys2Proof.Machine
end

