-- ==== Sys2Proof/Laws/PerInstr.lean ====
section
/-! SUPPORT. Facts about every command as syntax, one lemma for each constructor of Instr. Family RowMatch: the word of a
command is selected by the row of the opcode map with the command's mnemonic and by no other row (spec/30_encoding.md R83,
R85). -/

namespace Sys2Proof.Laws.RowMatch

/-- The rows that select a command's word are exactly its own. -/
def Statement (i : Instr) : Prop :=
  (opcodeRows.filter fun r => r.selects (encode i)).map OpcodeRow.mnemonic = [i.mnemonic]

/-- `op` is the high part of {op, data}: masking with 0x300 leaves it alone. -/
theorem mask_append (op : BitVec 2) (d : Byte) : (op ++ d : BitVec (2 + 8)) &&& 0x300#10 = (op ++ 0#8 : BitVec (2 + 8)) := by
  revert op d; decide +kernel

theorem init (d : Byte) : Statement (.init d) := by
  simp [Statement, opcodeRows, OpcodeRow.selects, encode, mask_append, Instr.mnemonic]

theorem absorb (b : Byte) : Statement (.absorb b) := by
  simp [Statement, opcodeRows, OpcodeRow.selects, encode, mask_append, Instr.mnemonic]

theorem final (d : Byte) : Statement (.final d) := by
  simp [Statement, opcodeRows, OpcodeRow.selects, encode, mask_append, Instr.mnemonic]

theorem rsvd (d : Byte) : Statement (.rsvd d) := by
  simp [Statement, opcodeRows, OpcodeRow.selects, encode, mask_append, Instr.mnemonic]

end Sys2Proof.Laws.RowMatch
end

