-- ==== Sys2Proof/Laws/Run.lean ====
section
/-! SUPPORT. Running the machine for several steps through the host's interface: one step at a time. -/

namespace Sys2Proof.Machine

/-- A run goes on from the next state. -/
theorem host_run_succ (M : Host.Core) {k : Nat} {s t : M.State} (h : M.step s = .next t) :
    M.run (k + 1) s = M.run k t := by
  rw [Host.Core.run, h]

/-- A run of this machine goes on from the next state. -/
theorem core_run_succ {k : Nat} {s t : State} (h : step s = .next t) :
    Host.Core.run Sys2Proof.core (k + 1) s = Host.Core.run Sys2Proof.core k t :=
  host_run_succ Sys2Proof.core h

/-- A run of no steps. -/
theorem core_run_zero (s : State) : Host.Core.run Sys2Proof.core 0 s = .next s := rfl

end Sys2Proof.Machine
end

