-- ==== Sys2Proof/Tests/Slice0.lean ====
section
/-! SUPPORT. The model's own tests, and a witness for the hypotheses of every statement. Expected values are those of
spec/95_test_vectors.md (V<n>) and of the worked examples of the rules (R<n>). -/

namespace Sys2Proof.Tests

set_option Elab.async false

open Sys2Proof Sys2Proof.Machine

/-! ### Helpers -/

/-- The next state of an outcome, where there is one. -/
def nextOf : Outcome → Option State
  | .next s => some s
  | .fault _ => none
  | .refused _ => none

theorem next_of_eq {o : Outcome} {t : State} (h : nextOf o = some t) : o = .next t := by
  cases o <;> simp_all [nextOf]

theorem exists_next {o : Outcome} (h : (nextOf o).isSome = true) : ∃ t, o = .next t := by
  cases o with
  | next s => exact ⟨s, rfl⟩
  | fault r => simp [nextOf] at h
  | refused r => simp [nextOf] at h

/-- A session with `n` bytes 0x61 in the buffer, `totalBits` = L and `words` = IV. -/
def session (n : Nat) (L : Word64) (p : Phase) : State :=
  { State.reset.openSession with
    buffer := (List.range n).map fun j => (j, 0x61), bufferLen := BitVec.ofNat 6 n, totalBits := L, phase := p }

/-- The state after `RESET; INIT`. -/
def fresh : State := State.reset.openSession

/-- An accepting session with an empty tail. -/
def opened : State := session 0 0 .accepting

/-- The state after FINAL, with the digest of `words` latched. -/
def closed : State := { fresh.closeSession with bufferLen := 0 }

/-- The block in a fault. -/
def faulted : State := fresh.raiseFault .illegalCommand

/-- A session whose tail of one byte has never been written: no run reaches it. -/
def unwritten (n : Nat) : State := { opened with bufferLen := BitVec.ofNat 6 n }

/-- The last block of the length bound (V27). -/
def bound : Word64 := BitVec.ofNat 64 (2 ^ 64 - 512)

/-- Host input: reset and a command word on the same edge. -/
def resetAndCommand : PortInput := ⟨true, true, 1, 0x61⟩

/-! ### Well-formedness: each check refuses an ill-formed term -/

theorem test_wf_refuses_number_wider_than_a_command_word : commandWordFits 0x400 = false := by decide
theorem test_decode_refuses_number_wider_than_a_command_word :
    decodeNat 0x400 = .error (.notACommandWord 0x400) := by decide
theorem test_wf_every_command : Instr.wf (.init 0xa5) = true ∧ Instr.wf (.absorb 0xff) = true ∧
    Instr.wf (.final 0xff) = true ∧ Instr.wf (.rsvd 0xff) = true := by decide
theorem test_canonical_refuses_ignored_data : Instr.canonical (.init 0xa5) = false ∧
    Instr.canonical (.final 0xff) = false ∧ Instr.canonical (.rsvd 0xa5) = false := by decide
theorem test_script_refuses_text_without_ascii_code : ScriptData.wf (.text [Char.ofNat 233]) = false := by decide
theorem test_memory_wf_refuses : Memory.wf [(1, 0), (0, 0)] = false ∧ Memory.wf [(0, 0), (0, 1)] = false ∧
    Memory.wf [(64, 0)] = false := by decide

/-! ### Decoding (V31) -/

theorem test_decode_init : decode 0b0000000000 = .init 0x00 ∧ decode 0b0010100101 = .init 0xa5 := by decide
theorem test_decode_absorb : decode 0b0100000000 = .absorb 0x00 ∧ decode 0b0101100001 = .absorb 0x61 ∧
    decode 0b0111111111 = .absorb 0xff := by decide
theorem test_decode_final : decode 0b1000000000 = .final 0x00 ∧ decode 0b1011111111 = .final 0xff := by decide
theorem test_decode_rsvd : decode 0b1100000000 = .rsvd 0x00 ∧ decode 0b1111111111 = .rsvd 0xff := by decide
theorem test_encode_words : encode (.init 0) = 0x000 ∧ encode (.absorb 0x61) = 0x161 ∧ encode (.final 0) = 0x200 ∧
    encode (.rsvd 0xff) = 0x3ff := by decide
theorem test_opcode_rows_do_not_overlap :
    opcodeRows.Pairwise fun r r' => r.mask &&& r'.mask &&& (r.pattern ^^^ r'.pattern) ≠ 0 := by decide
theorem test_table_words : decodeTableWord 16 0x161 = some (.absorb 0x61) ∧ decodeTableWord 10 0x3ff = some (.rsvd 0xff) ∧
    decodeTableWord 16 0x400 = none := by decide

/-! ### Primitive functions (V13, and the examples of R110 to R123) -/

theorem test_rotations_and_shifts : rotr 0x12345678 7 = 0xf02468ac ∧ rotr 0x12345678 18 = 0x159e048d ∧
    shr 0x12345678 3 = 0x02468acf ∧ shr 0x80000000 3 = 0x10000000 := by decide
theorem test_sigmas : bsig0 0x12345678 = 0x66146474 ∧ bsig1 0x12345678 = 0x3561abda ∧
    ssig0 0x12345678 = 0xe7fce6ee ∧ ssig1 0x12345678 = 0xa1f78649 := by decide
theorem test_ch_maj : ch 0x510e527f 0x9b05688c 0x1f83d9ab = 0x1f85c98c ∧
    maj 0x6a09e667 0xbb67ae85 0x3c6ef372 = 0x3a6fe667 := by decide
theorem test_add32_wraps : add32 0x80000000 0x80000000 = 0 ∧ add32 0x6a09e667 0x5d6aebcd = 0xc774d234 := by decide
theorem test_packing : be32Pack 0x61 0x62 0x63 0x80 = 0x61626380 ∧ be32Unpack 0x61626380 = [0x61, 0x62, 0x63, 0x80] ∧
    be64Unpack 24 = [0, 0, 0, 0, 0, 0, 0, 0x18] := by decide

/-! ### ROM (V29, R101, R103) -/

theorem test_rom_k : kTable.foldl (· ^^^ ·) 0 = 0x95c49cf5 ∧ kTable.foldl (· + ·) 0 = 0x941d1755 ∧
    kTable.getD 1 0 = 0x71374491 ∧ kTable.getD 31 0 = 0x14292967 ∧ kTable.getD 32 0 = 0x27b70a85 ∧
    kTable.getD 62 0 = 0xbef9a3f7 := by decide +kernel
theorem test_rom_iv : iv.toList.foldl (· ^^^ ·) 0 = 0xc62760eb ∧ iv.toList.foldl (· + ·) 0 = 0x6ea8df67 := by
  decide +kernel

/-! ### The Compressor (V10, V11, V14) and the Serializer (V30) -/

/-- The one block of the message "abc" (R131). -/
def abcBlock : List Byte := [0x61, 0x62, 0x63, 0x80] ++ List.replicate 52 0 ++ [0, 0, 0, 0, 0, 0, 0, 0x18]

theorem test_schedule_abc : (schedule abcBlock).take 1 = [0x61626380] ∧
    ((schedule abcBlock).drop 15).take 9 = [0x00000018, 0x61626380, 0x000f0000, 0x7da86405, 0x600003c6,
      0x3e9d7b78, 0x0183fc00, 0x12dcbfdb, 0xe2e2c38e] := by decide +kernel
theorem test_round_zero_abc : round (workingOf iv) 0x428a2f98 0x61626380 =
    ⟨0x5d6aebcd, 0x6a09e667, 0xbb67ae85, 0x3c6ef372, 0xfa2a4622, 0x510e527f, 0x9b05688c, 0x1f83d9ab⟩ := by decide +kernel
theorem test_compress_zero_block : compress iv (List.replicate 64 0) =
    #v[0xda5698be, 0x17b9b469, 0x62335799, 0x779fbeca, 0x8ce5d491, 0xc0d26243, 0xbafef9ea, 0x1837a9d8] := by
  decide +kernel
theorem test_compress_all_ones : compress (Vector.replicate 8 0xffffffff) (List.replicate 64 0xff) =
    #v[0x0598127a, 0xaf11706e, 0x77401fff, 0xd730c549, 0x0b84c867, 0xa98c6ca3, 0xd7f3c0f9, 0x06a78b79] := by
  decide +kernel
theorem test_serialize_in_word_order : (serialize #v[1, 2, 3, 4, 5, 6, 7, 8]).toList =
    [0, 0, 0, 1, 0, 0, 0, 2, 0, 0, 0, 3, 0, 0, 0, 4, 0, 0, 0, 5, 0, 0, 0, 6, 0, 0, 0, 7, 0, 0, 0, 8] := by decide +kernel
theorem test_hex_rendering : (renderHex (serialize #v[0xe3b0c442, 0, 0, 0, 0, 0, 0, 0xb852b855])).take 8 =
    ['e', '3', 'b', '0', 'c', '4', '4', '2'] := by decide +kernel

/-- The digest of "abc" (V2, V30: the 64-digit value). -/
theorem test_sha256_abc : digestBits (sha256 [0x61, 0x62, 0x63]) =
    0xba7816bf8f01cfea414140de5dae2223b00361a396177a9cb410ff61f20015ad := by decide +kernel

/-- The zero fill of R157's examples. -/
theorem test_padding_lengths : [0, 3, 55, 56, 63, 64].map (fun m => (padding m).length) = [64, 61, 9, 72, 65, 64] := by
  decide +kernel

/-! ### Commands, one step each -/

/-- INIT after reset (R161). -/
theorem test_init_after_reset : (nextOf (exec (.init 0xa5) State.reset)).map
    (fun t => (t.words, t.bufferLen, t.totalBits, t.phase, t.digestValid, t.fault)) =
    some (#v[0x6a09e667, 0xbb67ae85, 0x3c6ef372, 0xa54ff53a, 0x510e527f, 0x9b05688c, 0x1f83d9ab, 0x5be0cd19], 0, 0,
      .initialized, false, false) := by decide +kernel

/-- INIT in Finalized withdraws the digest (V26). -/
theorem test_init_after_final : (nextOf (exec (.init 0) closed)).map (fun t => (t.phase, t.digestValid)) =
    some (.initialized, false) := by decide +kernel

/-- ABSORB 0x61 after INIT (R162). -/
theorem test_absorb_first_byte : (nextOf (exec (.absorb 0x61) fresh)).map
    (fun t => (t.buffer.read 0, t.bufferLen, t.totalBits, t.phase)) = some (some 0x61, 1, 0, .accepting) := by
  decide +kernel

/-- The 64th ABSORB compresses (V24). -/
theorem test_absorb_full_block : (nextOf (exec (.absorb 0x61) (session 63 0 .accepting))).map
    (fun t => (t.words, t.bufferLen, t.totalBits)) =
    some (#v[0xdf5bb81c, 0xe81e0626, 0xfb45a894, 0x4fd40f31, 0xb25e6816, 0xd6d499c1, 0xab904929, 0x00635e66], 0, 512) := by
  decide +kernel

/-- FINAL of the empty message (V1, R104 b): it exercises every entry of the ROM. -/
theorem test_final_empty_message : (nextOf (exec (.final 0xff) fresh)).bind State.digestPort =
    some 0xe3b0c44298fc1c149afbf4c8996fb92427ae41e4649b934ca495991b7852b855 := by decide +kernel

/-- FINAL of 56 bytes takes two blocks (V21); the buffer holds the second. -/
theorem test_final_two_blocks : (nextOf (exec (.final 0) (session 56 0 .accepting))).map
    (fun t => (t.digestPort, t.totalBits, t.buffer.readBytes 61 3)) =
    some (some 0xb35439a4ac6f0948b6d6f9e3c6af0f5f590ce20f1bde7090ef7970686ec6738a, 448, some [0, 1, 0xc0]) := by
  decide +kernel

/-- The reserved encoding in mid-session (P6). -/
theorem test_rsvd_in_session : (nextOf (exec (.rsvd 0xa5) (session 1 0 .accepting))).map
    (fun t => (t.phase, t.fault, t.faultCause, t.digestValid)) = some (.accepting, true, .illegalCommand, false) := by
  decide +kernel

/-- Fault entry: ABSORB before INIT stores nothing (P7), and a second FINAL leaves the digest valid (V26). -/
theorem test_fault_entry :
    [exec (.absorb 0x61) State.reset, exec (.final 0) closed].map (fun o => (nextOf o).map fun t =>
      (t.phase, t.fault, t.faultCause, t.digestValid, t.buffer.length)) =
    [some (.uninitialized, true, .contractViolation, false, 0), some (.finalized, true, .contractViolation, true, 0)] := by
  decide +kernel

/-- A placed word is the first command after reset. -/
theorem test_step_runs_placed_word : (nextOf (step (State.reset.withFetchWord 16 0x000))).map State.phase =
    some .initialized := by decide +kernel

/-- Reset wins over a command on the same edge (R220). -/
theorem test_step_reset_wins : nextOf (step { faulted with inputs := [resetAndCommand] }) = some State.reset := by
  decide +kernel

/-! ### Witnesses: states and operands that meet the hypotheses of each statement -/

theorem inv_reset : State.reset.Inv :=
  ⟨by decide, by decide, by decide, by decide, by decide, by decide, by decide, by decide⟩

theorem inv_fresh : fresh.Inv :=
  ⟨by decide, by decide, by decide +kernel, by decide, by decide, by decide, by decide, by decide⟩

theorem inv_opened : opened.Inv :=
  ⟨by decide, by decide, by decide, by decide, by decide, by decide, by decide, by decide⟩

theorem inv_closed : closed.Inv :=
  ⟨by decide, by decide, by decide, by decide, fun _ => ⟨rfl, rfl, rfl⟩, by decide, by decide, by decide⟩

theorem inv_faulted : faulted.Inv :=
  ⟨by decide, by decide, by decide +kernel, by decide, by decide, by decide, by decide, by decide⟩

/-- A session at the length bound (V27) with 62 or 63 bytes in its tail. -/
theorem inv_bound62 : (session 62 bound .accepting).Inv :=
  ⟨by decide, by decide +kernel, by decide, by decide, by decide, by decide, by decide +kernel, by decide +kernel⟩

theorem inv_bound63 : (session 63 bound .accepting).Inv :=
  ⟨by decide, by decide +kernel, by decide, by decide, by decide, by decide, by decide +kernel, by decide +kernel⟩

theorem inv_session63 : (session 63 0 .accepting).Inv :=
  ⟨by decide, by decide +kernel, by decide, by decide, by decide, by decide, by decide +kernel, by decide +kernel⟩

theorem witness_ResetEventWins :
    (∃ s : State, s.inputs = [resetAndCommand] ∧ resetAndCommand.rst = true) ∧
    (∃ s t : State, step s = .next t ∧ s.fault = true ∧ t.fault = false) :=
  ⟨⟨{ faulted with inputs := [resetAndCommand] }, rfl, rfl⟩,
   ⟨{ faulted with inputs := [resetAndCommand] }, State.reset, next_of_eq (by decide +kernel), rfl, rfl⟩⟩

theorem witness_StepRunsDecodedCommand :
    (∃ (s : State) (p : PortInput), s.inputs = [p] ∧ p.rst = false ∧ p.cmdValid = true) ∧
    (∃ (s : State) (p : PortInput), s.inputs = [p] ∧ p.rst = false ∧ p.cmdValid = false) ∧
    (∃ s : State, s.inputs = []) :=
  ⟨⟨State.reset.withFetchWord 10 0x161, _, rfl, rfl, rfl⟩,
   ⟨{ State.reset with inputs := [⟨false, false, 0, 0⟩] }, _, rfl, rfl, rfl⟩, ⟨State.reset, rfl⟩⟩

theorem witness_PlacedWordRuns : decodeTableWord 16 0x000 = some (.init 0) ∧ decodeTableWord 16 0x3ff = some (.rsvd 0xff) ∧
    decodeTableWord 8 0x161 = some (.init 0x61) := by decide

theorem witness_DecodeEncodeAgree : (10 ≤ 10 ∧ 10 ≤ 16) ∧ 1024 ≤ 0x400 := by decide

/-- The text "abc", and the empty text. -/
theorem witness_ScriptExpansion : (ScriptData.text ['a', 'b', 'c']).wf = true ∧ (ScriptData.text []).wf = true ∧
    (ScriptData.text ['a', 'b', 'c']).bytes = [0x61, 0x62, 0x63] := by decide

theorem witness_InitEffect :
    State.reset.fault = false ∧ faulted.fault = true ∧ fresh.Inv ∧ fresh.phase = .initialized :=
  ⟨rfl, rfl, inv_fresh, rfl⟩

theorem witness_AbsorbEffect :
    (fresh.fault = false ∧ fresh.phase.inSession = true ∧ fresh.bufferLen ≠ 63) ∧
    ((session 62 bound .accepting).fault = false ∧ (session 62 bound .accepting).phase.inSession = true ∧
      (session 62 bound .accepting).bufferLen ≠ 63) ∧
    (let s := session 63 (BitVec.ofNat 64 (2 ^ 64 - 1024)) .accepting
     s.fault = false ∧ s.phase.inSession = true ∧ s.bufferLen = 63 ∧ s.totalBits ≠ BitVec.ofNat 64 (2 ^ 64 - 512) ∧
      (List.replicate 63 (0x61 : Byte)).length = 63 ∧
      ∀ j, j < 63 → s.buffer.read j = (List.replicate 63 (0x61 : Byte))[j]?) ∧
    (closed.fault = false ∧ closed.phase.inSession = false) ∧
    ((session 63 bound .accepting).fault = false ∧ (session 63 bound .accepting).phase.inSession = true ∧
      (session 63 bound .accepting).bufferLen = 63 ∧
      (session 63 bound .accepting).totalBits = BitVec.ofNat 64 (2 ^ 64 - 512)) := by decide +kernel

/-- The tail of a FINAL, at the boundary values of each case. -/
abbrev finalMeets (n : Nat) (s : State) : Prop :=
  s.fault = false ∧ s.phase.inSession = true ∧ s.bufferLen.toNat = n ∧ (List.replicate n (0x61 : Byte)).length = n ∧
    ∀ j, j < n → s.buffer.read j = (List.replicate n (0x61 : Byte))[j]?

theorem witness_FinalOneBlock : finalMeets 0 fresh ∧ finalMeets 55 (session 55 0 .accepting) := by decide +kernel

theorem witness_FinalTwoBlocks : finalMeets 56 (session 56 0 .accepting) ∧ finalMeets 63 (session 63 bound .accepting) := by
  decide +kernel

theorem witness_StateAfterFinal :
    (fresh.Inv ∧ fresh.fault = false ∧ fresh.phase.inSession = true) ∧
    ((session 63 bound .accepting).Inv ∧ (session 63 bound .accepting).fault = false ∧
      (session 63 bound .accepting).phase.inSession = true) :=
  ⟨⟨inv_fresh, rfl, rfl⟩, ⟨inv_bound63, rfl, rfl⟩⟩

theorem witness_ContractViolationCases :
    (State.reset.fault = false ∧ State.reset.phase = .uninitialized) ∧
    (closed.fault = false ∧ closed.phase = .finalized) := by decide +kernel

theorem witness_IllegalCommandEverywhere : State.reset.fault = false ∧ closed.fault = false ∧
    0x300 ≤ (0x300 : CommandWord).toNat ∧ 0x300 ≤ (0x3ff : CommandWord).toNat := by decide +kernel

theorem witness_LengthBoundary :
    ((session 63 bound .accepting).Inv ∧ (session 63 bound .accepting).fault = false ∧
      (session 63 bound .accepting).phase.inSession = true ∧ (session 63 bound .accepting).bufferLen = 63 ∧
      (session 63 bound .accepting).totalBits = BitVec.ofNat 64 (2 ^ 64 - 512)) ∧
    ((session 62 bound .accepting).Inv ∧ (session 62 bound .accepting).fault = false ∧
      (session 62 bound .accepting).phase.inSession = true ∧
      ¬ ((session 62 bound .accepting).bufferLen = 63 ∧
        (session 62 bound .accepting).totalBits = BitVec.ofNat 64 (2 ^ 64 - 512))) ∧
    ((session 63 0 .accepting).Inv ∧ (session 63 0 .accepting).fault = false ∧
      ¬ ((session 63 0 .accepting).bufferLen = 63 ∧
        (session 63 0 .accepting).totalBits = BitVec.ofNat 64 (2 ^ 64 - 512))) :=
  ⟨⟨inv_bound63, rfl, rfl, rfl, rfl⟩, ⟨inv_bound62, rfl, rfl, by decide +kernel⟩,
   ⟨inv_session63, rfl, by decide +kernel⟩⟩

/-- V27, second row: the overflowing ABSORB. -/
theorem witness_FaultEntryWritesNothingElse : ∃ t, exec (.absorb 0x61) (session 63 bound .accepting) = .next t ∧
    (session 63 bound .accepting).fault = false ∧ t.fault = true :=
  ⟨(session 63 bound .accepting).raiseFault .lengthOverflow, next_of_eq (by decide +kernel), rfl, rfl⟩

theorem witness_FaultIsStickyUntilReset : faulted.fault = true ∧
    (∃ s : State, s.fault = true ∧ ∃ p : PortInput, s.inputs = [p] ∧ p.rst = false) ∧
    (∃ s : State, s.fault = true ∧ ∃ p : PortInput, s.inputs = [p] ∧ p.rst = true) :=
  ⟨rfl, ⟨{ faulted with inputs := [PortInput.ofWord 0x161] }, rfl, _, rfl, rfl⟩,
   ⟨{ faulted with inputs := [resetAndCommand] }, rfl, _, rfl, rfl⟩⟩

/-- Both sides of the two equivalences hold somewhere. -/
theorem witness_StopsOnlyOnUnwrittenTail :
    exec (.absorb 0) (unwritten 63) = .fault .unwrittenByte ∧ exec (.final 0) (unwritten 1) = .fault .unwrittenByte ∧
    (unwritten 63).totalBits ≠ BitVec.ofNat 64 (2 ^ 64 - 512) ∧ (unwritten 63).buffer.read 62 = none ∧
    (unwritten 1).buffer.read 0 = none := ⟨rfl, rfl, by decide +kernel, rfl, rfl⟩

/-- Every command answers a next state from a fresh session, which meets the invariants. -/
theorem witness_PhaseTransitions : fresh.Inv ∧ fresh.fault = false ∧ (∃ t, exec (.init 0) fresh = .next t) ∧
    (∃ t, exec (.absorb 0x61) fresh = .next t) ∧ (∃ t, exec (.final 0) fresh = .next t) ∧
    (∃ t, exec (.rsvd 0) fresh = .next t) ∧ faulted.Inv ∧ (∃ t, exec (.absorb 0) faulted = .next t) ∧
    closed.Inv ∧ (∃ t, exec (.final 0) closed = .next t) ∧ State.reset.Inv ∧ (∃ t, exec (.absorb 0) State.reset = .next t) ∧
    (session 63 bound .accepting).Inv ∧ (∃ t, exec (.absorb 0) (session 63 bound .accepting) = .next t) :=
  ⟨inv_fresh, rfl, exists_next (by decide +kernel), exists_next (by decide +kernel), exists_next (by decide +kernel),
   exists_next (by decide +kernel), inv_faulted, exists_next (by decide +kernel), inv_closed,
   exists_next (by decide +kernel), inv_reset, exists_next (by decide +kernel), inv_bound63,
   exists_next (by decide +kernel)⟩

theorem witness_DigestWriters :
    (∃ t, exec (.init 0) closed = .next t ∧ closed.fault = false) ∧
    (∃ t, exec (.final 0) fresh = .next t ∧ fresh.fault = false ∧ t.fault = false) ∧
    (∃ (s : State) (p : PortInput), s.inputs = [p] ∧ p.rst = true) ∧
    closed.Inv ∧ closed.digestValid = true ∧ fresh.digestValid = false := by
  refine ⟨⟨_, rfl, rfl⟩, ?_, ⟨{ closed with inputs := [resetAndCommand] }, _, rfl, rfl⟩, inv_closed, rfl, rfl⟩
  obtain ⟨t, h⟩ := exists_next (o := exec (.final 0) fresh) (by decide +kernel)
  refine ⟨t, h, rfl, ?_⟩
  have hf : (nextOf (exec (.final 0) fresh)).map State.fault = some false := by decide +kernel
  rw [h] at hf
  exact Option.some.inj hf

/-- One next state for each kind of write: IV, no write, one COMPRESS in ABSORB, one in FINAL, two in FINAL. -/
theorem witness_WordsWriters : (∃ t, exec (.init 0) opened = .next t) ∧ (∃ t, exec (.absorb 0) opened = .next t) ∧
    (∃ t, exec (.absorb 0) (session 63 0 .accepting) = .next t) ∧ (∃ t, exec (.final 0) opened = .next t) ∧
    (∃ t, exec (.final 0) (session 63 0 .accepting) = .next t) ∧ (∃ t, exec (.rsvd 0) opened = .next t) :=
  ⟨exists_next (by decide +kernel), exists_next (by decide +kernel), exists_next (by decide +kernel),
   exists_next (by decide +kernel), exists_next (by decide +kernel), exists_next (by decide +kernel)⟩

theorem witness_BitCountAdvances (n : Nat) (hn : n = 62 ∨ n = 63) :
    (session n 0 .accepting).phase.inSession = true ∧ (session n 0 .accepting).fault = false ∧
    (nextOf (exec (.absorb 0x61) (session n 0 .accepting))).map State.fault = some false ∧
    (session 63 0 .accepting).Inv ∧ (session 63 bound .accepting).Inv := by
  rcases hn with rfl | rfl
  · exact ⟨rfl, rfl, by decide +kernel, inv_session63, inv_bound63⟩
  · exact ⟨rfl, rfl, by decide +kernel, inv_session63, inv_bound63⟩

theorem witness_FrameOfStorelessCommands :
    (∃ t, exec (.init 0) (session 63 0 .accepting) = .next t) ∧
    (∃ t, exec (.rsvd 0) (session 63 0 .accepting) = .next t) ∧ (∃ t, exec (.init 0) faulted = .next t) ∧
    (∃ t, exec (.rsvd 0) faulted = .next t) ∧ faulted.fault = true :=
  ⟨exists_next (by decide +kernel), exists_next (by decide +kernel), exists_next (by decide +kernel),
   exists_next (by decide +kernel), rfl⟩

/-- The byte taken, the full block, the length bound, and a faulted block. -/
theorem witness_FrameOfAbsorb :
    (nextOf (exec (.absorb 0) (session 62 0 .accepting))).map State.fault = some false ∧
    (nextOf (exec (.absorb 0) (session 63 0 .accepting))).map State.fault = some false ∧
    (nextOf (exec (.absorb 0) (session 63 bound .accepting))).map State.fault = some true ∧
    (session 62 0 .accepting).bufferLen ≠ 63 ∧
    faulted.fault = true ∧ nextOf (exec (.absorb 0) faulted) = some faulted := by decide +kernel

theorem witness_FrameOfFinal :
    (nextOf (exec (.final 0) (session 55 0 .accepting))).map State.fault = some false ∧
    (nextOf (exec (.final 0) (session 56 0 .accepting))).map State.fault = some false ∧
    (nextOf (exec (.final 0) closed)).map State.fault = some true ∧
    (session 55 0 .accepting).bufferLen.toNat ≤ 55 ∧
    faulted.fault = true ∧ nextOf (exec (.final 0) faulted) = some faulted := by decide +kernel

/-- States that meet the invariants in every phase, with a step from each. -/
theorem witness_StepKeepsInvariants : State.reset.Inv ∧ fresh.Inv ∧ opened.Inv ∧ closed.Inv ∧ faulted.Inv ∧
    (session 63 bound .accepting).Inv ∧ (∃ t, step State.reset = .next t) ∧
    (∃ t, step (fresh.withFetchWord 10 0x161) = .next t) :=
  ⟨inv_reset, inv_fresh, inv_opened, inv_closed, inv_faulted, inv_bound63, ⟨_, rfl⟩, exists_next (by decide +kernel)⟩

theorem witness_InvariantStatesNeverStop : State.reset.Inv ∧ (session 63 bound .accepting).Inv := ⟨inv_reset, inv_bound63⟩

/-- Two different states that agree: one byte of the buffer is stale. -/
theorem witness_StepKeepsAgreement : fresh.Agree { fresh with buffer := [(5, 0xff)] } ∧
    fresh ≠ { fresh with buffer := [(5, 0xff)] } :=
  ⟨⟨rfl, rfl, rfl, rfl, rfl, fun _ => rfl, fun _ => rfl, fun _ => rfl, fun _ => rfl, fun _ j hj => absurd hj (Nat.not_lt_zero j)⟩,
   by decide +kernel⟩

/-- Two states without a fault that agree, after FINAL, on nothing of the HashState. -/
theorem witness_AgreementShowsOnPorts :
    closed.Agree { closed with words := #v[0, 0, 0, 0, 0, 0, 0, 0], bufferLen := 7, totalBits := 8 } :=
  ⟨rfl, rfl, rfl, rfl, rfl, fun _ => rfl, fun h => absurd h (by decide), fun h => absurd h (by decide),
   fun h => absurd h (by decide), fun h => absurd h (by decide)⟩

/-- Every phase and every cause, for the codes on the ports. -/
theorem witness_PortCodes :
    [State.reset, fresh, opened, closed].map State.phase = [.uninitialized, .initialized, .accepting, .finalized] ∧
    [fresh, faulted, fresh.raiseFault .contractViolation, fresh.raiseFault .lengthOverflow].map State.faultCause =
      [.none, .illegalCommand, .contractViolation, .lengthOverflow] := by decide +kernel

/-- INIT from reset and from the middle of a session. -/
theorem witness_InitForgetsTheOldSession : State.reset.Inv ∧ (session 63 0 .accepting).Inv ∧ State.reset.fault = false ∧
    (session 63 0 .accepting).fault = false ∧ State.reset.inputs = (session 63 0 .accepting).inputs :=
  ⟨inv_reset, inv_session63, rfl, rfl, rfl⟩

theorem witness_UpdateAccumulates : (List.replicate 64 (0x61 : Byte)).length ≤ 2 ^ 61 - 1 ∧ fresh.Inv ∧
    fresh.fault = false ∧ fresh.phase = .initialized ∧ ([] : List Byte).length ≤ 2 ^ 61 - 1 :=
  ⟨by decide +kernel, inv_fresh, rfl, rfl, by decide⟩

/-- The cut of "abc" after its first byte (V25), from reset. -/
theorem witness_SplitInvariance : ([0x61] : List Byte).length + ([0x62, 0x63] : List Byte).length ≤ 2 ^ 61 - 1 ∧
    State.reset.fault = false := by decide

theorem witness_SessionComputesDigest : ([0x61, 0x62, 0x63] : List Byte).length ≤ 2 ^ 61 - 1 ∧
    State.reset.fault = false ∧ closed.fault = false := by decide +kernel

/-- `HASH hex:616263` on the port, from reset and from Finalized. -/
theorem witness_PortSessionShowsDigest :
    (∃ s : State, s.fault = false ∧ s.inputs = (ScriptLine.hash (.hex [0x61, 0x62, 0x63])).samples ++ []) ∧
    (∃ s : State, s.fault = false ∧ s.phase = .finalized ∧
      s.inputs = (ScriptLine.hash (.hex [])).samples ++ [resetAndCommand]) :=
  ⟨⟨{ State.reset with inputs := (ScriptLine.hash (.hex [0x61, 0x62, 0x63])).samples ++ [] }, rfl, rfl⟩,
   ⟨{ closed with inputs := (ScriptLine.hash (.hex [])).samples ++ [resetAndCommand] }, rfl, rfl, rfl⟩⟩

/-- A buffer in which all 64 bytes have a value. -/
theorem witness_BufferIsBigEndian :
    Memory.block ((List.range 64).map fun j => (j, 0x61)) = some (List.replicate 64 0x61) ∧
    Memory.read [(0, 0x61), (1, 0x62), (2, 0x63), (3, 0x80)] 0 = some 0x61 ∧
    Memory.read [(0, 0x61), (1, 0x62), (2, 0x63), (3, 0x80)] (0 + 3) = some 0x80 ∧
    Memory.read32 [(0, 0x61), (1, 0x62), (2, 0x63), (3, 0x80)] 0 = some 0x61626380 := by decide +kernel

theorem witness_DigestPortLayout : closed.digestPort.isSome = true ∧ fresh.digestPort = none := by decide +kernel

theorem witness_RotrMovesBits : (1 ≤ 1 ∧ 1 ≤ 31) ∧ (1 ≤ 31 ∧ 31 ≤ 31) ∧ rotr 1 1 = 0x80000000 ∧
    rotr 0x80000000 31 = 1 := by decide

theorem witness_ShrDivides : (1 ≤ 1 ∧ 1 ≤ 31) ∧ (1 ≤ 31 ∧ 31 ≤ 31) ∧ shr 0xffffffff 10 = 0x003fffff ∧ shr 7 3 = 0 := by
  decide

/-- Bits 0 and 31, the ends of the range, in the statements about words bit by bit. -/
theorem witness_SigmaBits : 0 < 32 ∧ 31 < 32 ∧ bsig0 1 = 0x40080400 ∧ ssig0 0x80000000 = 0x11002000 := by decide

theorem witness_ChooseAndMajority : 0 < 32 ∧ 31 < 32 ∧ ch 0xf0f0f0f0 0xaaaaaaaa 0x55555555 = 0xa5a5a5a5 ∧
    maj 0xf0f0f0f0 0xcccccccc 0xaaaaaaaa = 0xe8e8e8e8 := by decide

theorem witness_BytePacking : 0 < 8 ∧ 7 < 8 ∧ (be64Unpack 0x3c0)[6]? = some 0x03 ∧ (be64Unpack 0x3c0)[7]? = some 0xc0 := by
  decide

/-- A character of the rendering of the digest of "abc". -/
theorem witness_HexRendering : 'b' ∈ renderHex (serialize #v[0xba7816bf, 0, 0, 0, 0, 0, 0, 0]) := by decide +kernel

theorem witness_ScheduleRecurrence : abcBlock.length = 64 ∧ abcBlock[4 * 0]? = some 0x61 ∧
    abcBlock[4 * 15 + 3]? = some 0x18 ∧ (16 ≤ 63 ∧ 63 < 64) ∧ (schedule abcBlock)[16 - 16]? = some 0x61626380 ∧
    (schedule abcBlock)[63 - 2]?.isSome = true := by decide +kernel

theorem witness_CompressRunsTheRounds : abcBlock.length = 64 := by decide

end Sys2Proof.Tests
end

section
/-! The writers of `digest` and `digest_valid` (spec/10_state.md R28): what each command does to the two registers, and what
the events of the port that carry no command do. -/

namespace Sys2Proof.Machine

variable {s t : State}

/-! ### The step at a sample without a command (R82, R220) -/

/-- A sample with `rst` = 1 is the reset event, whether it carries a command word or not. -/
theorem step_of_rst {p : PortInput} {rest : List PortInput} (hi : s.inputs = p :: rest) (hr : p.rst = true) :
    step s = .next (s.setInputs rest).resetEvent := by
  have hp : p.event = .reset := by simp [PortInput.event, hr]
  simp [step, hi, hp]

/-- A sample with `rst` = 0 and `cmd_valid` = 0 is taken and changes nothing else. -/
theorem step_of_idle {p : PortInput} {rest : List PortInput} (hi : s.inputs = p :: rest) (hr : p.rst = false)
    (hv : p.cmdValid = false) : step s = .next (s.setInputs rest) := by
  have hp : p.event = .idle := by simp [PortInput.event, hr, hv]
  simp [step, hi, hp]

/-! ### What each command does to the digest (R161, R162, R164, R193) -/

theorem absorbByte_keeps_digest {b : Byte} (h : absorbByte b s = some t) :
    t.digest = s.digest ∧ t.digestValid = s.digestValid := by
  obtain ⟨-, rfl⟩ | ⟨-, B, -, rfl⟩ := absorbByte_cases h
  · exact ⟨rfl, rfl⟩
  · exact ⟨rfl, rfl⟩

theorem exec_absorb_keeps_digest {b : Byte} (h : exec (.absorb b) s = .next t) :
    t.digest = s.digest ∧ t.digestValid = s.digestValid := by
  obtain ⟨-, rfl⟩ | ⟨-, -, rfl⟩ | ⟨-, -, -, rfl⟩ | ⟨-, -, -, ht⟩ := execAbsorb_cases h
  · exact ⟨rfl, rfl⟩
  · exact ⟨rfl, rfl⟩
  · exact ⟨rfl, rfl⟩
  · exact absorbByte_keeps_digest ht

theorem exec_rsvd_keeps_digest {d : Byte} (h : exec (.rsvd d) s = .next t) :
    t.digest = s.digest ∧ t.digestValid = s.digestValid := by
  obtain ⟨-, rfl⟩ | ⟨-, rfl⟩ := execRsvd_cases h
  · exact ⟨rfl, rfl⟩
  · exact ⟨rfl, rfl⟩

/-- The end of the session latches the words it leaves, since `closeSession` does not write them. -/
theorem finalize_digest (h : finalize s = some t) : t.digest = serialize t.words ∧ t.digestValid = true := by
  obtain ⟨u, -, rfl⟩ := finalize_cases h
  exact ⟨rfl, rfl⟩

/-- FINAL ends in a fault, old or new, with the digest as it was, or it writes the digest. -/
theorem exec_final_digest {d : Byte} (h : exec (.final d) s = .next t) :
    (t.fault = true ∧ t.digest = s.digest ∧ t.digestValid = s.digestValid) ∨
    (t.digest = serialize t.words ∧ t.digestValid = true) := by
  obtain ⟨hf, rfl⟩ | ⟨-, -, rfl⟩ | ⟨-, -, ht⟩ := execFinal_cases h
  · exact .inl ⟨hf, rfl, rfl⟩
  · exact .inl ⟨rfl, rfl, rfl⟩
  · exact .inr (finalize_digest ht)

theorem exec_init_clears_digestValid {d : Byte} (h : exec (.init d) s = .next t) (hf : s.fault = false) :
    t.digestValid = false := by
  obtain ⟨hf', -⟩ | ⟨-, rfl⟩ := execInit_cases h
  · simp [hf] at hf'
  · exact State.openSession_digestValid s

theorem exec_final_writes_digest {d : Byte} (h : exec (.final d) s = .next t) (hf : t.fault = false) :
    t.digest = serialize t.words ∧ t.digestValid = true := by
  obtain ⟨hf', -⟩ | ht := exec_final_digest h
  · simp [hf] at hf'
  · exact ht

/-- Over all commands: the digest stays as it was, or INIT clears its flag, or FINAL writes it. -/
theorem exec_digest_cases {i : Instr} (h : exec i s = .next t) :
    (t.digest = s.digest ∧ t.digestValid = s.digestValid) ∨
    (∃ d, i = .init d ∧ t.digest = s.digest ∧ t.digestValid = false) ∨
    (∃ d, i = .final d ∧ t.digest = serialize t.words ∧ t.digestValid = true) := by
  cases i with
  | init d =>
    obtain ⟨-, rfl⟩ | ⟨-, rfl⟩ := execInit_cases h
    · exact .inl ⟨rfl, rfl⟩
    · exact .inr (.inl ⟨d, rfl, rfl, rfl⟩)
  | absorb b => exact .inl (exec_absorb_keeps_digest h)
  | final d =>
    obtain ⟨-, hkept⟩ | hwritten := exec_final_digest h
    · exact .inl hkept
    · exact .inr (.inr ⟨d, rfl, hwritten⟩)
  | rsvd d => exact .inl (exec_rsvd_keeps_digest h)

/-! ### The digest port (R181, R229) -/

theorem State.digestPort_of_invalid (h : s.digestValid = false) : s.digestPort = none := by
  simp [State.digestPort, h]

end Sys2Proof.Machine

open Sys2Proof Sys2Proof.Machine

/-- Settles O24, from what each command and each event of the port does to the two registers, and R35 (d). -/
theorem digestWriters : Obligations.DigestWriters := by
  refine ⟨fun _ _ _ h => exec_digest_cases h, fun _ _ _ h hf => exec_init_clears_digestValid h hf,
    fun _ _ _ h _ hf => exec_final_writes_digest h hf, ?reset, ?idle, fun _ hs => hs.valid,
    fun _ h => State.digestPort_of_invalid h⟩
  case reset =>
    intro s p rest hi hr
    exact ⟨_, step_of_rst hi hr, State.resetEvent_digestValid _⟩
  case idle =>
    intro s p rest hi hr hv
    exact ⟨_, step_of_idle hi hr hv, State.setInputs_digest _ _, State.setInputs_digestValid _ _⟩

end

section
/-! The constant ROM recomputed (spec/40_constant_rom.md R102, R103): each word is an integer root cut to its low 32 bits,
and the cut-off part is the integer part of the root of the prime itself. -/

namespace Sys2Proof.Machine

/-- A number `w` that is the `k`-th root of `n`, cut to 32 bits, is that root again once the cut-off part `q` is put back;
`q` is below any `b` with `n` below `(b × 2^32)^k`. -/
theorem exists_integerPart_of_eq_nthRoot_mod {k n b w : Nat} (hk : k ≠ 0) (hn : n < (b * 2 ^ 32) ^ k)
    (hw : w = k.nthRoot n % 2 ^ 32) :
    ∃ q : Fin b, (q.val * 2 ^ 32 + w) ^ k ≤ n ∧ n < (q.val * 2 ^ 32 + w + 1) ^ k := by
  have hq : k.nthRoot n / 2 ^ 32 < b := Nat.div_lt_of_lt_mul (Nat.mul_comm b _ ▸ (Nat.nthRoot_lt_iff hk).mpr hn)
  have hroot : k.nthRoot n / 2 ^ 32 * 2 ^ 32 + w = k.nthRoot n := by rw [hw, Nat.div_add_mod']
  refine ⟨⟨_, hq⟩, ?_⟩
  rw [hroot]
  exact ⟨Nat.pow_nthRoot_le (.inl hk), Nat.lt_pow_nthRoot_add_one hk n⟩

/-- R102: `K[t]` = floor(cbrt(p(t) × 2^96)) mod 2^32. -/
theorem kTable_eq_cubeRoot_mod (t : Fin 64) :
    (kTable.getD t 0).toNat = Nat.nthRoot 3 (romPrimes.getD t 0 * 2 ^ 96) % 2 ^ 32 := by
  revert t; decide +kernel

/-- R103: `IV[i]` = floor(sqrt(p(i) × 2^64)) mod 2^32. -/
theorem iv_eq_squareRoot_mod (i : Fin 8) :
    (iv[i]).toNat = Nat.nthRoot 2 (romPrimes.getD i 0 * 2 ^ 64) % 2 ^ 32 := by
  revert i; decide +kernel

/-- Every prime of the table is below 7^3, so its cube root has an integer part below 7. -/
theorem romPrimes_lt_seven_pow (t : Fin 64) : romPrimes.getD t 0 < 7 ^ 3 := by
  revert t; decide

/-- The first eight primes are below 5^2, so their square roots have an integer part below 5. -/
theorem romPrimes_lt_five_pow (i : Fin 8) : romPrimes.getD i 0 < 5 ^ 2 := by
  revert i; decide

end Sys2Proof.Machine

open Sys2Proof Sys2Proof.Machine

/-- Settles O53: the words are R102's and R103's integer roots mod 2^32, and the quotient by 2^32 is the `q` asked for. -/
theorem romFromPrimes : Obligations.RomFromPrimes := by
  refine ⟨length_kTable, fun t => ?cubeRoot, fun i => ?squareRoot⟩
  case cubeRoot =>
    have hp := romPrimes_lt_seven_pow t
    exact exists_integerPart_of_eq_nthRoot_mod (by decide) (by omega) (kTable_eq_cubeRoot_mod t)
  case squareRoot =>
    have hp := romPrimes_lt_five_pow i
    exact exists_integerPart_of_eq_nthRoot_mod (by decide) (by omega) (iv_eq_squareRoot_mod i)

end

section
/-! The word primitives bit by bit (spec/41_primitives.md R111, R112, R116 to R119): where each bit of a rotation, a shift
and a sigma function comes from. -/

namespace Sys2Proof.Machine

/-! ### Rotation (R111) -/

/-- `rotr` is the library's rotation, which takes the amount mod 32 too (log 10). -/
theorem rotr_eq_rotateRight (x : Word) (n : Nat) : rotr x n = x.rotateRight n :=
  BitVec.rotateRight_def.symm

/-- R111's formula, for the amounts that need no reduction mod 32. -/
theorem rotr_eq_or_of_lt (x : Word) {n : Nat} (hn : n < 32) : rotr x n = (x >>> n) ||| (x <<< (32 - n)) := by
  simp only [rotr, Nat.mod_eq_of_lt hn]

/-- R111, for every amount: a bit below `32 - n % 32` comes from the right shift, one above it is a low bit of `x` that
reappears on top. -/
@[simp] theorem getLsbD_rotr (x : Word) (n : Nat) {i : Nat} (hi : i < 32) :
    (rotr x n).getLsbD i = x.getLsbD ((i + n) % 32) := by
  rw [rotr_eq_rotateRight, BitVec.getLsbD_rotateRight]
  by_cases hlow : i < 32 - n % 32
  · have hsource : (i + n) % 32 = n % 32 + i := by omega
    simp [hlow, hsource]
  · have hsource : (i + n) % 32 = i - (32 - n % 32) := by omega
    simp [hlow, hi, hsource]

/-- Rotations add up. -/
theorem rotr_rotr (x : Word) (m n : Nat) : rotr (rotr x m) n = rotr x (m + n) := by
  apply BitVec.eq_of_getLsbD_eq
  intro i hi
  have hsource : ((i + n) % 32 + m) % 32 = (i + (m + n)) % 32 := by omega
  rw [getLsbD_rotr _ _ hi, getLsbD_rotr _ _ (Nat.mod_lt _ (by decide)), getLsbD_rotr _ _ hi, hsource]

/-- A whole turn gives the word back. -/
@[simp] theorem rotr_wordSize (x : Word) : rotr x 32 = x := by
  apply BitVec.eq_of_getLsbD_eq
  intro i hi
  rw [getLsbD_rotr _ _ hi, Nat.add_mod_right, Nat.mod_eq_of_lt hi]

/-! ### Shift (R112) -/

theorem toNat_shr (x : Word) (n : Nat) : (shr x n).toNat = x.toNat / 2 ^ n := by
  rw [shr, BitVec.toNat_ushiftRight, Nat.shiftRight_eq_div_pow]

/-- A bit of the shift comes from `n` places up, where `x` has one: its bits from 32 on are the zeros filled in. -/
@[simp] theorem getLsbD_shr (x : Word) (n i : Nat) :
    (shr x n).getLsbD i = (decide (i + n < 32) && x.getLsbD (i + n)) := by
  rw [shr, BitVec.getLsbD_ushiftRight, Nat.add_comm n i]
  by_cases hin : i + n < 32
  · simp [hin]
  · simp [hin, BitVec.getLsbD_of_ge x _ (Nat.le_of_not_lt hin)]

/-! ### The sigma functions (R116 to R119) -/

section
variable (x : Word) {i : Nat} (hi : i < 32)
include hi

theorem getLsbD_bsig0 : (bsig0 x).getLsbD i =
    ((x.getLsbD ((i + 2) % 32) ^^ x.getLsbD ((i + 13) % 32)) ^^ x.getLsbD ((i + 22) % 32)) := by
  simp only [bsig0, BitVec.getLsbD_xor, getLsbD_rotr _ _ hi]

theorem getLsbD_bsig1 : (bsig1 x).getLsbD i =
    ((x.getLsbD ((i + 6) % 32) ^^ x.getLsbD ((i + 11) % 32)) ^^ x.getLsbD ((i + 25) % 32)) := by
  simp only [bsig1, BitVec.getLsbD_xor, getLsbD_rotr _ _ hi]

theorem getLsbD_ssig0 : (ssig0 x).getLsbD i =
    ((x.getLsbD ((i + 7) % 32) ^^ x.getLsbD ((i + 18) % 32)) ^^ (decide (i + 3 < 32) && x.getLsbD (i + 3))) := by
  simp only [ssig0, BitVec.getLsbD_xor, getLsbD_rotr _ _ hi, getLsbD_shr]

theorem getLsbD_ssig1 : (ssig1 x).getLsbD i =
    ((x.getLsbD ((i + 17) % 32) ^^ x.getLsbD ((i + 19) % 32)) ^^ (decide (i + 10 < 32) && x.getLsbD (i + 10))) := by
  simp only [ssig1, BitVec.getLsbD_xor, getLsbD_rotr _ _ hi, getLsbD_shr]

end

end Sys2Proof.Machine

open Sys2Proof Sys2Proof.Machine

/-- Settles O47: the bits by `getLsbD_rotr`; rotating on by `32 - n` completes a whole turn. -/
theorem rotrMovesBits : Obligations.RotrMovesBits := by
  intro x n _ hn
  refine ⟨rotr_eq_or_of_lt x (by omega), fun i hi => getLsbD_rotr x n hi, ?wholeTurn⟩
  case wholeTurn =>
    have hturn : n + (32 - n) = 32 := by omega
    rw [rotr_rotr, hturn, rotr_wordSize]

/-- Settles O50, from the bits of the rotations and of the shift. -/
theorem sigmaBits : Obligations.SigmaBits :=
  fun x _ hi => ⟨getLsbD_bsig0 x hi, getLsbD_bsig1 x hi, getLsbD_ssig0 x hi, getLsbD_ssig1 x hi⟩

/-- Settles O48, for the value and for each bit. -/
theorem shrDivides : Obligations.ShrDivides :=
  fun x n _ _ => ⟨toNat_shr x n, fun i _ => getLsbD_shr x n i⟩

end

section
/-! The Compressor (spec/42_compressor.md R131 to R136): each derived schedule word read off the finished schedule, and the
working variables before each round. -/

namespace Sys2Proof.Machine

/-! ### The schedule (R131, R132) -/

/-- R131, for the four bytes of word t. -/
theorem getElem?_blockWords {B : List Byte} {t : Nat} (ht : t < 16) {b0 b1 b2 b3 : Byte} (h0 : B[4 * t]? = some b0)
    (h1 : B[4 * t + 1]? = some b1) (h2 : B[4 * t + 2]? = some b2) (h3 : B[4 * t + 3]? = some b3) :
    (blockWords B)[t]? = some (be32Pack b0 b1 b2 b3) := by
  simp [blockWords, ht, h0, h1, h2, h3]

/-- R132, for a schedule as far as it has been built: the next word from the four words it reads. -/
theorem nextScheduleWord_of_getElem? {W : List Word} {w2 w7 w15 w16 : Word} (h2 : W[W.length - 2]? = some w2)
    (h7 : W[W.length - 7]? = some w7) (h15 : W[W.length - 15]? = some w15) (h16 : W[W.length - 16]? = some w16) :
    nextScheduleWord W = ssig1 w2 + w7 + ssig0 w15 + w16 := by
  simp [nextScheduleWord, add32, h2, h7, h15, h16]

/-- A schedule is extended at its end alone. -/
theorem prefix_extendSchedule (k : Nat) (W : List Word) : W <+: extendSchedule k W := by
  induction k generalizing W with
  | zero => exact List.prefix_rfl
  | succ k ih => exact (List.prefix_append W _).trans (ih _)

/-- A word added by the extension is the next word after all those below it. -/
theorem getElem?_extendSchedule {k t : Nat} {W : List Word} (hle : W.length ≤ t) (hlt : t < W.length + k) :
    (extendSchedule k W)[t]? = some (nextScheduleWord ((extendSchedule k W).take t)) := by
  induction k generalizing W with
  | zero => omega
  | succ k ih =>
    rw [extendSchedule]
    obtain rfl | hne := Nat.eq_or_lt_of_le hle
    · obtain ⟨rest, hrest⟩ := prefix_extendSchedule k (W ++ [nextScheduleWord W])
      simp [← hrest]
    · exact ih (by simpa using hne) (by simp; omega)

/-- The first 16 words of the schedule are those of the block. -/
theorem getElem?_schedule_of_lt (B : List Byte) {t : Nat} (ht : t < 16) : (schedule B)[t]? = (blockWords B)[t]? := by
  obtain ⟨derived, hderived⟩ := prefix_extendSchedule 48 (blockWords B)
  rw [schedule, ← hderived, List.getElem?_append_left ((length_blockWords B).symm ▸ ht)]

/-- R132 on the finished schedule. -/
theorem getElem?_schedule_of_ge (B : List Byte) {t : Nat} (hge : 16 ≤ t) (hlt : t < 64) {w2 w7 w15 w16 : Word}
    (h2 : (schedule B)[t - 2]? = some w2) (h7 : (schedule B)[t - 7]? = some w7)
    (h15 : (schedule B)[t - 15]? = some w15) (h16 : (schedule B)[t - 16]? = some w16) :
    (schedule B)[t]? = some (ssig1 w2 + w7 + ssig0 w15 + w16) := by
  have hnext : (schedule B)[t]? = some (nextScheduleWord ((schedule B).take t)) :=
    getElem?_extendSchedule ((length_blockWords B).trans_le hge) ((length_blockWords B).symm ▸ hlt)
  have hlen : ((schedule B).take t).length = t :=
    List.length_take_of_le ((length_schedule B).symm ▸ hlt.le)
  have hbelow {d : Nat} {w : Word} (hd : 0 < d) (h : (schedule B)[t - d]? = some w) :
      ((schedule B).take t)[((schedule B).take t).length - d]? = some w := by
    rw [hlen, List.getElem?_take_of_lt (by omega), h]
  rw [hnext, nextScheduleWord_of_getElem? (hbelow (by decide) h2) (hbelow (by decide) h7) (hbelow (by decide) h15)
    (hbelow (by decide) h16)]

/-! ### The rounds (R133 to R136) -/

/-- One round more, for the next constant and schedule word. -/
theorem rounds_take_succ (v : Working) {kw : List (Word × Word)} {t : Nat} {k w : Word} (h : kw[t]? = some (k, w)) :
    rounds v (kw.take (t + 1)) = round (rounds v (kw.take t)) k w := by
  simp [rounds, List.take_add_one, h]

/-- The working variables of COMPRESS before round t; those before round 64 are the final ones. -/
def workingAt (S : Vector Word 8) (B : List Byte) (t : Nat) : Working :=
  rounds (workingOf S) ((kTable.zip (schedule B)).take t)

theorem workingAt_zero (S : Vector Word 8) (B : List Byte) : workingAt S B 0 = workingOf S := rfl

theorem workingAt_succ (S : Vector Word 8) {B : List Byte} {t : Nat} {k w : Word} (hk : kTable[t]? = some k)
    (hw : (schedule B)[t]? = some w) : workingAt S B (t + 1) = round (workingAt S B t) k w :=
  rounds_take_succ _ (List.getElem?_zip_eq_some.2 ⟨hk, hw⟩)

theorem compress_eq_feedForward_workingAt (S : Vector Word 8) (B : List Byte) :
    compress S B = feedForward S (workingAt S B 64) := by
  rw [compress, workingAt, List.take_of_length_le (length_roundInputs B).le]

end Sys2Proof.Machine

open Sys2Proof Sys2Proof.Machine

/-- Settles O51: the first 16 words are the block's, and each later one follows the words below it. -/
theorem scheduleRecurrence : Obligations.ScheduleRecurrence := by
  refine fun B _ => ⟨length_schedule B, ?block, ?derived⟩
  case block =>
    intro t ht _ _ _ _ h0 h1 h2 h3
    rw [getElem?_schedule_of_lt B ht, getElem?_blockWords ht h0 h1 h2 h3]
  case derived =>
    intro t hge hlt _ _ _ _ h2 h7 h15 h16
    exact getElem?_schedule_of_ge B hge hlt h2 h7 h15 h16

/-- Settles O52, with `workingAt` for the working variables: ROM and schedule both have a word for each round. -/
theorem compressRunsTheRounds : Obligations.CompressRunsTheRounds := by
  refine fun S B _ => ⟨workingAt S B, workingAt_zero S B, ?round, compress_eq_feedForward_workingAt S B⟩
  case round =>
    intro t ht
    obtain ⟨k, hk⟩ : ∃ k, kTable[t]? = some k := ⟨_, List.getElem?_eq_getElem (length_kTable.symm ▸ ht)⟩
    obtain ⟨w, hw⟩ : ∃ w, (schedule B)[t]? = some w := ⟨_, List.getElem?_eq_getElem ((length_schedule B).symm ▸ ht)⟩
    exact ⟨k, w, hk, hw, workingAt_succ S hk hw⟩

end

section
/-! PAD inside FINAL (spec/43_padder.md R150 to R155): each write of PAD appends to the bytes the buffer already holds from
its start, until it holds a whole block for COMPRESS. -/

namespace Sys2Proof.Machine

/-! ### What the buffer holds from address 0 on -/

/-- The bytes `B` stand in `buffer` from address 0 on. -/
def Memory.Holds (m : Memory) (B : List Byte) : Prop := ∀ j, j < B.length → m.read j = B[j]?

section
variable {m : Memory} {A B T : List Byte}

/-- The range is the length, however that is spelled. -/
theorem Memory.holds_iff {n : Nat} (hlen : B.length = n) : m.Holds B ↔ ∀ j, j < n → m.read j = B[j]? := by
  rw [Memory.Holds, hlen]

theorem Memory.Holds.of_append (h : m.Holds (A ++ B)) : m.Holds A := fun j hj => by
  rw [h j (List.length_append ▸ Nat.lt_add_right _ hj), List.getElem?_append_left hj]

/-- Bytes written where the held ones end are appended to them. -/
theorem Memory.Holds.writeBytes (h : m.Holds T) (vs : List Byte) : (m.writeBytes T.length vs).Holds (T ++ vs) := by
  intro j hj
  rw [List.length_append] at hj
  rw [Memory.read_writeBytes]
  by_cases hold : j < T.length
  · rw [if_neg (by omega), h j hold, List.getElem?_append_left hold]
  · rw [if_pos (by omega), List.getElem?_append_right (by omega)]

theorem Memory.Holds.write (h : m.Holds T) (v : Byte) : (m.write T.length v).Holds (T ++ [v]) := h.writeBytes [v]

theorem Memory.Holds.zeroFill (h : m.Holds T) (hi : Nat) :
    (m.zeroFill T.length hi).Holds (T ++ List.replicate (hi + 1 - T.length) 0) := h.writeBytes _

theorem Memory.Holds.write64 (h : m.Holds T) (v : Word64) : (m.write64 T.length v).Holds (T ++ be64Unpack v) :=
  h.writeBytes _

/-- A buffer that holds 64 bytes is that block (R130). -/
theorem Memory.Holds.block_eq (h : m.Holds B) (hlen : B.length = 64) : m.block = some B :=
  (Memory.readBytes_eq_some m 0 64 B).2 ⟨hlen, fun k hk => by rw [Nat.zero_add, h k (hlen ▸ hk)]⟩

end

/-! ### The blocks PAD builds on the tail T (R152 to R155) -/

section
variable {s : State} {T : List Byte} (hlen : T.length = s.bufferLen.toNat) (hT : s.buffer.Holds T)
include hlen

theorem length_onlyPadBlock (hn : s.bufferLen.toNat ≤ 55) (L : Word64) :
    (T ++ [0x80] ++ List.replicate (55 - s.bufferLen.toNat) 0 ++ be64Unpack L).length = 64 := by
  simp [hlen, Config.lenBytes]; omega

theorem length_firstPadBlock : (T ++ [0x80] ++ List.replicate (63 - s.bufferLen.toNat) 0).length = 64 := by
  have hlt : s.bufferLen.toNat < 64 := s.bufferLen.isLt
  simp [hlen]; omega

include hT

/-- The mark follows the tail (R152), and zeros follow the mark, up to index 55 or 63 (R153, R154). -/
theorem holds_zeroFill_markedBuffer (hi : Nat) :
    ((markedBuffer s).zeroFill (s.bufferLen.toNat + 1) hi).Holds
      (T ++ [0x80] ++ List.replicate (hi - s.bufferLen.toNat) 0) := by
  simpa [markedBuffer, hlen] using (hT.write 0x80).zeroFill hi

theorem holds_onlyPadBuffer (hn : s.bufferLen.toNat ≤ 55) :
    (onlyPadBuffer s).Holds
      (T ++ [0x80] ++ List.replicate (55 - s.bufferLen.toNat) 0 ++ be64Unpack (messageBits s)) := by
  have hfill := holds_zeroFill_markedBuffer hlen hT 55
  have h56 : (T ++ [0x80] ++ List.replicate (55 - s.bufferLen.toNat) 0).length = 56 := by
    simp [hlen]; omega
  simpa only [onlyPadBuffer, h56] using hfill.write64 (messageBits s)

theorem holds_firstPadBuffer :
    (firstPadBuffer s).Holds (T ++ [0x80] ++ List.replicate (63 - s.bufferLen.toNat) 0) :=
  holds_zeroFill_markedBuffer hlen hT 63

end

theorem length_secondPadBlock (L : Word64) : (List.replicate 56 0 ++ be64Unpack L).length = 64 := by
  simp [Config.lenBytes]

/-- The last block holds nothing of the tail or of the mark, whatever stood there: the buffer is cleared
first (R154). -/
theorem holds_secondPadBuffer (s : State) :
    (secondPadBuffer s).Holds (List.replicate 56 0 ++ be64Unpack (messageBits s)) := by
  have hnil : (firstPadBuffer s).Holds [] := fun _ hj => absurd hj (Nat.not_lt_zero _)
  have hclear : ((firstPadBuffer s).zeroFill 0 63).Holds (List.replicate 56 0 ++ List.replicate 8 0) := hnil.zeroFill 63
  exact hclear.of_append.write64 (messageBits s)

/-! ### PAD writes only to `buffer[0..63]` (R50) -/

variable {s : State}

theorem read_firstPadBuffer_of_ge {j : Nat} (hj : 64 ≤ j) : (firstPadBuffer s).read j = s.buffer.read j := by
  have hlt : s.bufferLen.toNat < 64 := s.bufferLen.isLt
  rw [read_firstPadBuffer, if_neg (by omega), if_neg (by omega)]

theorem read_onlyPadBuffer_of_ge {j : Nat} (hj : 64 ≤ j) : (onlyPadBuffer s).read j = s.buffer.read j := by
  have hlt : s.bufferLen.toNat < 64 := s.bufferLen.isLt
  rw [read_onlyPadBuffer, if_neg (by omega), if_neg (by omega), if_neg (by omega)]

theorem read_secondPadBuffer_of_ge {j : Nat} (hj : 64 ≤ j) : (secondPadBuffer s).read j = s.buffer.read j := by
  rw [read_secondPadBuffer, if_neg (by omega), if_neg (by omega), read_firstPadBuffer_of_ge hj]

/-! ### FINAL (R164) -/

/-- FINAL, once admitted: PAD has settled `totalBits`, `buffer` and `words`, and the end of the session writes the rest
(R169). -/
theorem exec_final_of_pad {d : Byte} {L : Word64} {m : Memory} {S : Vector Word 8} (hf : s.fault = false)
    (hp : s.phase.inSession = true) (hpad : pad s = some (((s.setTotalBits L).setBuffer m).setWords S)) :
    exec (.final d) s = .next { s with words := S, buffer := m, bufferLen := 0, totalBits := L, digest := serialize S,
                                       digestValid := true, phase := .finalized } := by
  rw [exec_final_of_admitted hf hp, complete_eq_next, finalize, hpad]
  rfl

end Sys2Proof.Machine

open Sys2Proof Sys2Proof.Machine

/-- Settles O12: the mark, the zero fill and the length suffix each append to the tail, and 64 bytes are the block. -/
theorem finalOneBlock : Obligations.FinalOneBlock := by
  intro d s T hf hp hn hlen htail
  rw [← messageBits_eq]
  have h64 := length_onlyPadBlock hlen hn (messageBits s)
  have hholds := holds_onlyPadBuffer hlen ((Memory.holds_iff hlen).2 htail) hn
  have hpad := pad_one hn (hholds.block_eq h64)
  exact ⟨onlyPadBuffer s, (Memory.holds_iff h64).1 hholds, fun _ hj => read_onlyPadBuffer_of_ge hj,
    exec_final_of_pad hf hp hpad⟩

/-- Settles O13: the first block ends with the zero fill, and the buffer is cleared before the second, which is left in
it. -/
theorem finalTwoBlocks : Obligations.FinalTwoBlocks := by
  intro d s T hf hp hn hlen htail
  rw [← messageBits_eq]
  have hfirst := (holds_firstPadBuffer hlen ((Memory.holds_iff hlen).2 htail)).block_eq (length_firstPadBlock hlen)
  have h64 := length_secondPadBlock (messageBits s)
  have hsecond := holds_secondPadBuffer s
  have hpad := pad_two hn hfirst (hsecond.block_eq h64)
  exact ⟨secondPadBuffer s, (Memory.holds_iff h64).1 hsecond, fun _ hj => read_secondPadBuffer_of_ge hj,
    exec_final_of_pad hf hp hpad⟩

end

section
/-! The engine's commands (spec/44_engine.md R160 to R162): what INIT, ABSORB and FINAL answer, and the phase and the
fault each command leaves. -/

namespace Sys2Proof.Machine

variable {s t : State} {b d : Byte}

/-! ### Every command after a fault (R196, R199) -/

theorem exec_of_fault (i : Instr) (hf : s.fault = true) : exec i s = .next s := by
  cases i with
  | init d => exact unlessFaulted_of_fault hf _
  | absorb b => exact unlessFaulted_of_fault hf _
  | final d => exact unlessFaulted_of_fault hf _
  | rsvd d => exact unlessFaulted_of_fault hf _

/-! ### Fault entry (R197) -/

theorem exec_raises {i : Instr} {c : FaultCause} {p : Phase} (h : exec i s = .next t)
    (hr : exec i s = .next (s.raiseFault c)) (hp : s.phase = p) :
    t.phase = p ∧ t.fault = true ∧ t.faultCause = c := by
  cases hr.symm.trans h
  exact ⟨hp, rfl, rfl⟩

/-! ### INIT and the reserved encoding (R161, R193) -/

theorem exec_init_of_live (hf : s.fault = false) : exec (.init d) s = .next s.openSession := by
  rw [exec_init, execInit, unlessFaulted_of_live hf]

theorem exec_rsvd_of_live (hf : s.fault = false) : exec (.rsvd d) s = .next (s.raiseFault .illegalCommand) := by
  rw [exec_rsvd, execRsvd, unlessFaulted_of_live hf]

/-- Outside Finalized no digest is shown: R35 (d), the other way round. -/
theorem State.Inv.digestValid_of_ne (hs : s.Inv) (hp : s.phase ≠ .finalized) : s.digestValid = false :=
  Bool.eq_false_iff.2 fun hv => hp (hs.valid.1 hv)

/-- In Initialized the registers INIT writes hold what it writes: R35 (c) and (d). -/
theorem State.Inv.openSession_eq_self (hs : s.Inv) (hp : s.phase = .initialized) : s.openSession = s := by
  obtain ⟨hwords, hlen, hbits⟩ := hs.fresh hp
  have hvalid := hs.digestValid_of_ne (by simp [hp])
  rw [State.openSession, ← hwords, ← hlen, ← hbits, ← hvalid, ← hp]

/-! ### ABSORB and FINAL outside a session (R192) -/

theorem exec_absorb_of_closed (hf : s.fault = false) (hp : s.phase.inSession = false) :
    exec (.absorb b) s = .next (s.raiseFault .contractViolation) := by
  rw [exec_absorb, execAbsorb, unlessFaulted_of_live hf, requireSession_of_closed hp]

theorem exec_final_of_closed (hf : s.fault = false) (hp : s.phase.inSession = false) :
    exec (.final d) s = .next (s.raiseFault .contractViolation) := by
  rw [exec_final, execFinal, unlessFaulted_of_live hf, requireSession_of_closed hp]

/-! ### ABSORB in a session (R162, R194) -/

theorem lengthExhausted_eq_false_iff :
    lengthExhausted s = false ↔ (s.bufferLen = 63 → s.totalBits ≠ BitVec.ofNat 64 (2 ^ 64 - 512)) := by
  rw [← Bool.not_eq_true, lengthExhausted_iff, not_and]

theorem exec_absorb_of_exhausted (hf : s.fault = false) (hp : s.phase.inSession = true)
    (hl : lengthExhausted s = true) : exec (.absorb b) s = .next (s.raiseFault .lengthOverflow) := by
  rw [exec_absorb, execAbsorb, unlessFaulted_of_live hf, requireSession_of_open hp, requireRoom_of_exhausted hl]

theorem exec_absorb_partial (hf : s.fault = false) (hp : s.phase.inSession = true) (hn : s.bufferLen ≠ 63) :
    exec (.absorb b) s = .next (s.setBuffer (s.buffer.write s.bufferLen.toNat b)).nextByte := by
  have hroom := lengthExhausted_eq_false_iff.2 fun h63 => absurd h63 hn
  rw [exec_absorb_of_admitted hf hp hroom, complete_eq_next, absorbByte_partial hn]

theorem exec_absorb_full {B : List Byte} (hf : s.fault = false) (hp : s.phase.inSession = true)
    (hl : lengthExhausted s = false) (hn : s.bufferLen = 63) (hB : (s.buffer.write 63 b).block = some B) :
    exec (.absorb b) s =
      .next ((s.setBuffer (s.buffer.write 63 b)).setWords (compress s.words B)).nextBlock := by
  rw [exec_absorb_of_admitted hf hp hl, complete_eq_next, absorbByte_full hn hB]

/-- The 64th byte completes the block of a tail of 63. -/
theorem Memory.Holds.block_write {m : Memory} {T : List Byte} (hT : m.Holds T) (hlen : T.length = 63) (b : Byte) :
    (m.write 63 b).block = some (T ++ [b]) := by
  have h64 := hT.write b
  rw [hlen] at h64
  exact h64.block_eq (by simp [hlen])

/-! ### The phase and the fault ABSORB and FINAL leave (R160) -/

theorem absorbByte_phase_fault (h : absorbByte b s = some t) : t.phase = .accepting ∧ t.fault = s.fault := by
  obtain ⟨-, rfl⟩ | ⟨-, B, -, rfl⟩ := absorbByte_cases h
  · exact ⟨rfl, rfl⟩
  · exact ⟨rfl, rfl⟩

theorem pad_keeps_fault (h : pad s = some t) : t.fault = s.fault := by
  obtain ⟨-, B, -, rfl⟩ | ⟨-, B1, B2, -, -, rfl⟩ := pad_cases h
  · simp
  · simp

theorem finalize_phase_fault (h : finalize s = some t) : t.phase = .finalized ∧ t.fault = s.fault := by
  obtain ⟨u, hu, rfl⟩ := finalize_cases h
  exact ⟨rfl, (State.closeSession_fault u).trans (pad_keeps_fault hu)⟩

/-- ABSORB with room to spare goes on to Accepting. -/
theorem exec_absorb_accepts (h : exec (.absorb b) s = .next t) (hf : s.fault = false)
    (hp : s.phase.inSession = true) (hl : lengthExhausted s = false) : t.phase = .accepting ∧ t.fault = false := by
  rw [exec_absorb_of_admitted hf hp hl, complete_eq_next] at h
  exact hf ▸ absorbByte_phase_fault h

/-- FINAL in a session ends it. -/
theorem exec_final_finalizes (h : exec (.final d) s = .next t) (hf : s.fault = false)
    (hp : s.phase.inSession = true) : t.phase = .finalized ∧ t.fault = false := by
  rw [exec_final_of_admitted hf hp, complete_eq_next] at h
  exact hf ▸ finalize_phase_fault h

/-- In Initialized there is room, since `bufferLen` = 0 (R160: LengthOverflow "cannot happen in row Initialized"). -/
theorem State.Inv.room_of_initialized (hs : s.Inv) (hp : s.phase = .initialized) : lengthExhausted s = false := by
  obtain ⟨-, hlen, -⟩ := hs.fresh hp
  exact lengthExhausted_eq_false_iff.2 fun h63 => by simp [hlen] at h63

/-- ABSORB in Accepting stays there, and faults exactly at the length bound. -/
theorem exec_absorb_in_accepting (h : exec (.absorb b) s = .next t) (hf : s.fault = false) (hp : s.phase = .accepting) :
    t.phase = .accepting ∧
      (t.fault = true ↔ s.bufferLen = 63 ∧ s.totalBits = BitVec.ofNat 64 (2 ^ 64 - 512)) ∧
      (t.fault = true → t.faultCause = .lengthOverflow) := by
  have hopen : s.phase.inSession = true := congrArg Phase.inSession hp
  rw [← lengthExhausted_iff]
  cases hl : lengthExhausted s with
  | true =>
    obtain ⟨htp, htf, htc⟩ := exec_raises h (exec_absorb_of_exhausted hf hopen hl) hp
    exact ⟨htp, iff_of_true htf rfl, fun _ => htc⟩
  | false =>
    obtain ⟨htp, htf⟩ := exec_absorb_accepts h hf hopen hl
    exact ⟨htp, by simp [htf], by simp [htf]⟩

end Sys2Proof.Machine

open Sys2Proof Sys2Proof.Machine

/-- Settles O10: INIT is `openSession` when not faulted, which a fresh session already satisfies. -/
theorem initEffect : Obligations.InitEffect := by
  refine ⟨fun _ _ hf => exec_init_of_live hf, fun _ _ hf => exec_of_fault _ hf, fun d s hs hp => ?_⟩
  cases hf : s.fault with
  | true => exact exec_of_fault _ hf
  | false => rw [exec_init_of_live hf, hs.openSession_eq_self hp]

/-- Settles O11, by the order of ABSORB's checks; the byte at index 63 completes the block T ++ [b]. -/
theorem absorbEffect : Obligations.AbsorbEffect := by
  intro b s hf
  refine ⟨fun hp hn => exec_absorb_partial hf hp hn, ?full, fun hp => exec_absorb_of_closed hf hp, ?overflow⟩
  case full =>
    intro hp hn hroom T hlen htail
    have hblock := Memory.Holds.block_write ((Memory.holds_iff hlen).2 htail) hlen b
    exact exec_absorb_full hf hp (lengthExhausted_eq_false_iff.2 fun _ => hroom) hn hblock
  case overflow =>
    intro hp hn hbound
    exact exec_absorb_of_exhausted hf hp ((lengthExhausted_iff s).2 ⟨hn, hbound⟩)

/-- Settles O23, cell by cell of the table of R160. -/
theorem phaseTransitions : Obligations.PhaseTransitions := by
  refine ⟨fun i s t hs h => ⟨fun hf => ?faulted, fun hf => ?live⟩, ?reset⟩
  case faulted =>
    cases (exec_of_fault i hf).symm.trans h
    rfl
  case live =>
    cases i with
    | init d =>
      cases (exec_init_of_live hf).symm.trans h
      exact ⟨rfl, hf⟩
    | absorb b =>
      cases hp : s.phase with
      | uninitialized => exact exec_raises h (exec_absorb_of_closed hf (congrArg Phase.inSession hp)) hp
      | initialized => exact exec_absorb_accepts h hf (congrArg Phase.inSession hp) (hs.room_of_initialized hp)
      | accepting => exact exec_absorb_in_accepting h hf hp
      | finalized => exact exec_raises h (exec_absorb_of_closed hf (congrArg Phase.inSession hp)) hp
    | final d =>
      cases hp : s.phase with
      | uninitialized => exact exec_raises h (exec_final_of_closed hf (congrArg Phase.inSession hp)) hp
      | initialized => exact exec_final_finalizes h hf (congrArg Phase.inSession hp)
      | accepting => exact exec_final_finalizes h hf (congrArg Phase.inSession hp)
      | finalized => exact exec_raises h (exec_final_of_closed hf (congrArg Phase.inSession hp)) hp
    | rsvd d => exact exec_raises h (exec_rsvd_of_live hf) rfl
  case reset =>
    intro s p rest hi hr
    exact ⟨_, step_of_rst hi hr, State.resetEvent_phase _⟩

end

section
/-! The Serializer (spec/45_serializer.md R180 to R182): the bytes of the digest, the layout of the digest port and the
text rendering. -/

namespace Sys2Proof.Machine

/-! ### A word and its four bytes (R120, R121) -/

/-- Packing the four bytes that stand at bits n to n + 31 gives those 32 bits, whatever the value they stand in. -/
theorem be32Pack_extractLsb' {w : Nat} (x : BitVec w) (n : Nat) :
    be32Pack (x.extractLsb' (n + 24) 8) (x.extractLsb' (n + 16) 8) (x.extractLsb' (n + 8) 8) (x.extractLsb' n 8) =
      x.extractLsb' n 32 := by
  have h16 : x.extractLsb' (n + 24) 8 ++ x.extractLsb' (n + 16) 8 = x.extractLsb' (n + 16) 16 :=
    BitVec.extractLsb'_append_extractLsb'_eq_extractLsb' rfl
  have h24 : x.extractLsb' (n + 16) 16 ++ x.extractLsb' (n + 8) 8 = x.extractLsb' (n + 8) 24 :=
    BitVec.extractLsb'_append_extractLsb'_eq_extractLsb' rfl
  have h32 : x.extractLsb' (n + 8) 24 ++ x.extractLsb' n 8 = x.extractLsb' n 32 :=
    BitVec.extractLsb'_append_extractLsb'_eq_extractLsb' rfl
  rw [be32Pack, h16, h24, h32]

/-- Byte k of a packed word, counted from the most significant, is the k-th byte packed. -/
theorem extractLsb'_be32Pack (f : Fin 4 → Byte) (k : Fin 4) :
    (be32Pack (f 0) (f 1) (f 2) (f 3)).extractLsb' (24 - 8 * k.val) 8 = f k := by
  have hdrop : ∀ {v n : Nat} (x : BitVec v) (b : Byte), (x ++ b).extractLsb' (n + 8) 8 = x.extractLsb' n 8 :=
    fun _ _ => BitVec.extractLsb'_append_eq_of_le (Nat.le_add_left ..)
  match k with
  | 0 => exact (hdrop _ (f 3)).trans ((hdrop _ (f 2)).trans BitVec.extractLsb'_append_eq_left)
  | 1 => exact (hdrop _ (f 3)).trans ((hdrop _ (f 2)).trans BitVec.extractLsb'_append_eq_right)
  | 2 => exact (hdrop _ (f 3)).trans BitVec.extractLsb'_append_eq_right
  | 3 => exact BitVec.extractLsb'_append_eq_right

/-! ### SERIALIZE and its inverse (R180) -/

theorem getElem_serialize (S : Vector Word 8) (i : Fin 8) (k : Fin 4) :
    (serialize S)[4 * i.val + k.val] = S[i].extractLsb' (24 - 8 * k.val) 8 := by
  have hdiv : (4 * i.val + k.val) / 4 = i.val := by omega
  have hmod : (4 * i.val + k.val) % 4 = k.val := by omega
  simp [serialize, hdiv, hmod]

theorem be32Pack_serialize (S : Vector Word 8) (i : Fin 8) :
    be32Pack (serialize S)[4 * i.val] (serialize S)[4 * i.val + 1] (serialize S)[4 * i.val + 2]
      (serialize S)[4 * i.val + 3] = S[i] := by
  have h0 := getElem_serialize S i 0
  have h1 := getElem_serialize S i 1
  have h2 := getElem_serialize S i 2
  have h3 := getElem_serialize S i 3
  calc
    _ = be32Pack (S[i].extractLsb' 24 8) (S[i].extractLsb' 16 8) (S[i].extractLsb' 8 8) (S[i].extractLsb' 0 8) :=
      congr (congr (congr (congrArg be32Pack h0) h1) h2) h3
    _ = S[i] := (be32Pack_extractLsb' S[i] 0).trans BitVec.extractLsb'_eq_self

/-- The words whose serialization is `D`: each group of four bytes packed (R120). -/
def packWords (D : Vector Byte 32) : Vector Word 8 :=
  Vector.ofFn fun i => be32Pack D[4 * i.val] D[4 * i.val + 1] D[4 * i.val + 2] D[4 * i.val + 3]

theorem serialize_packWords (D : Vector Byte 32) : serialize (packWords D) = D := by
  refine Vector.ext fun j hj => ?_
  obtain ⟨i, k, rfl⟩ : ∃ (i : Fin 8) (k : Fin 4), j = 4 * i.val + k.val :=
    ⟨⟨j / 4, by omega⟩, ⟨j % 4, by omega⟩, (Nat.div_add_mod j 4).symm⟩
  have hword : (packWords D)[i] = be32Pack D[4 * i.val] D[4 * i.val + 1] D[4 * i.val + 2] D[4 * i.val + 3] := by
    simp [packWords]
  rw [getElem_serialize, hword]
  exact extractLsb'_be32Pack (fun k => D[4 * i.val + k.val]) k

/-! ### The digest port (R181) -/

/-- One step of the port's assembly: a byte shifted in at the low end. -/
def pushByte (acc : BitVec 256) (b : Byte) : BitVec 256 := (acc <<< 8) ||| b.setWidth 256

theorem digestBits_eq_foldl_pushByte (d : Vector Byte 32) : digestBits d = d.toList.foldl pushByte 0 := rfl

theorem lowByte_pushByte (acc : BitVec 256) (b : Byte) : (pushByte acc b).extractLsb' 0 8 = b := by
  ext i hi
  have hlt : i < 256 := by omega
  simp [pushByte, hi, hlt]

/-- A byte already in the port moves up by eight bits, as long as it does not leave at the top. -/
theorem extractLsb'_pushByte (acc : BitVec 256) (b : Byte) {n : Nat} (hn : n + 16 ≤ 256) :
    (pushByte acc b).extractLsb' (n + 8) 8 = acc.extractLsb' n 8 := by
  ext i hi
  have hlt : n + 8 + i < 256 := by omega
  have hge : ¬ n + 8 + i < 8 := by omega
  have hsub : n + 8 + i - 8 = n + i := by omega
  have hbyte : b.getLsbD (n + 8 + i) = false := BitVec.getLsbD_of_ge b _ (Nat.le_of_not_lt hge)
  simp [pushByte, hlt, hge, hsub, hbyte, BitVec.getLsbD_eq_getElem (show n + i < 256 by omega)]

/-- The last byte shifted in is at the low end, and each byte before it eight bits further up. -/
theorem extractLsb'_foldl_pushByte (l : List Byte) (hl : l.length ≤ 32) {j : Nat} (hj : j < l.length) :
    (l.foldl pushByte 0).extractLsb' (8 * (l.length - 1 - j)) 8 = l[j] := by
  induction l using List.reverseRecOn with
  | nil => exact absurd hj (Nat.not_lt_zero j)
  | append_singleton l b ih =>
    simp only [List.length_append, List.length_singleton] at hl hj
    obtain hlt | rfl := Nat.lt_succ_iff_lt_or_eq.1 hj
    · have hpos : 8 * ((l ++ [b]).length - 1 - j) = 8 * (l.length - 1 - j) + 8 := by
        rw [List.length_append, List.length_singleton]; omega
      rw [List.foldl_concat, hpos, extractLsb'_pushByte _ _ (by omega), ih (by omega) hlt, List.getElem_append_left hlt]
    · simp [lowByte_pushByte]

theorem extractLsb'_digestBits (d : Vector Byte 32) {j : Nat} (hj : j < 32) :
    (digestBits d).extractLsb' (248 - 8 * j) 8 = d[j] := by
  have hpos : 248 - 8 * j = 8 * (d.toList.length - 1 - j) := by rw [Vector.length_toList]; omega
  rw [digestBits_eq_foldl_pushByte, hpos, extractLsb'_foldl_pushByte _ (by simp) (by simpa using hj),
    Vector.getElem_toList]

theorem State.digestPort_eq_some_iff {s : State} {p : BitVec 256} :
    s.digestPort = some p ↔ s.digestValid = true ∧ digestBits s.digest = p := by
  simp [State.digestPort]

/-- The 32 port bits of word i are its four serialized bytes, packed. -/
theorem extractLsb'_digestBits_serialize (S : Vector Word 8) (i : Fin 8) :
    (digestBits (serialize S)).extractLsb' (224 - 32 * i.val) 32 = S[i] := by
  have hbyte : ∀ {n j : Nat} (hj : j < 32), n = 248 - 8 * j →
      (digestBits (serialize S)).extractLsb' n 8 = (serialize S)[j] := by
    rintro n j hj rfl
    exact extractLsb'_digestBits (serialize S) hj
  rw [← be32Pack_extractLsb', hbyte (j := 4 * i.val) (by omega) (by omega),
    hbyte (j := 4 * i.val + 1) (by omega) (by omega), hbyte (j := 4 * i.val + 2) (by omega) (by omega),
    hbyte (j := 4 * i.val + 3) (by omega) (by omega), be32Pack_serialize]

/-! ### The text rendering (R182) -/

/-- The sixteen digits, by value: the list `hexDigit` reads. -/
def hexDigits : List Char := ['0', '1', '2', '3', '4', '5', '6', '7', '8', '9', 'a', 'b', 'c', 'd', 'e', 'f']

theorem getElem?_hexDigits (x : BitVec 4) : hexDigits[x.toNat]? = some (hexDigit x) := by
  have hlt : x.toNat < hexDigits.length := x.isLt
  rw [List.getElem?_eq_getElem hlt]
  exact congrArg some (List.getD_eq_getElem hexDigits '0' hlt).symm

theorem hexDigit_mem_hexDigits (x : BitVec 4) : hexDigit x ∈ hexDigits :=
  List.mem_of_getElem? (getElem?_hexDigits x)

theorem hexDigits_highNibble (b : Byte) : hexDigits[b.toNat / 16]? = some (hexDigit (b.extractLsb' 4 4)) := by
  have hval : (b.extractLsb' 4 4).toNat = b.toNat / 16 := by
    rw [BitVec.extractLsb'_toNat, Nat.shiftRight_eq_div_pow]; omega
  rw [← hval, getElem?_hexDigits]

theorem hexDigits_lowNibble (b : Byte) : hexDigits[b.toNat % 16]? = some (hexDigit (b.extractLsb' 0 4)) := by
  have hval : (b.extractLsb' 0 4).toNat = b.toNat % 16 := by simp
  rw [← hval, getElem?_hexDigits]

section
variable {α β : Type} (f g : α → β)

/-- Where each element becomes two, element j is at 2j and 2j + 1. -/
theorem getElem?_flatMap_pair (l : List α) (j : Nat) :
    (l.flatMap fun x => [f x, g x])[2 * j]? = l[j]?.map f ∧
      (l.flatMap fun x => [f x, g x])[2 * j + 1]? = l[j]?.map g := by
  induction l generalizing j with
  | nil => simp
  | cons x xs ih =>
    cases j with
    | zero => simp
    | succ j => simpa [Nat.mul_succ] using ih j

end

theorem length_renderHex (d : Vector Byte 32) : (renderHex d).length = 64 := by
  simp [renderHex, List.length_flatMap]

/-- The two characters of byte j. -/
theorem getElem?_renderHex (d : Vector Byte 32) {j : Nat} (hj : j < 32) :
    (renderHex d)[2 * j]? = some (hexDigit (d[j].extractLsb' 4 4)) ∧
      (renderHex d)[2 * j + 1]? = some (hexDigit (d[j].extractLsb' 0 4)) := by
  have hbyte : d.toList[j]? = some d[j] := by simp [hj]
  simpa [renderHex, hbyte] using getElem?_flatMap_pair (fun b : Byte => hexDigit (b.extractLsb' 4 4))
    (fun b => hexDigit (b.extractLsb' 0 4)) d.toList j

theorem mem_hexDigits_of_mem_renderHex {d : Vector Byte 32} {c : Char} (hc : c ∈ renderHex d) : c ∈ hexDigits := by
  obtain ⟨b, -, hb⟩ := List.mem_flatMap.1 hc
  obtain rfl | rfl := List.mem_pair.1 hb
  · exact hexDigit_mem_hexDigits _
  · exact hexDigit_mem_hexDigits _

end Sys2Proof.Machine

open Sys2Proof Sys2Proof.Machine

/-- Settles O43: each byte by its word and place, and `packWords` as the inverse. -/
theorem serializeBytes : Obligations.SerializeBytes :=
  ⟨fun S i => ⟨fun k => getElem_serialize S i k, be32Pack_serialize S i⟩, fun D => ⟨packWords D, serialize_packWords D⟩⟩

/-- Settles O44, by the place of a byte in the port; a word's bits are its four bytes packed. -/
theorem digestPortLayout : Obligations.DigestPortLayout := by
  refine ⟨fun s p h => ?_, extractLsb'_digestBits_serialize⟩
  obtain ⟨hvalid, rfl⟩ := State.digestPort_eq_some_iff.1 h
  exact ⟨hvalid, fun j => extractLsb'_digestBits s.digest j.isLt⟩

/-- Settles O45, by the two characters of each byte and the digit of each nibble. -/
theorem hexRendering : Obligations.HexRendering := by
  refine fun d => ⟨length_renderHex d, fun j => ?_, fun _ hc => mem_hexDigits_of_mem_renderHex hc⟩
  obtain ⟨hhigh, hlow⟩ := getElem?_renderHex d j.isLt
  exact ⟨hhigh.trans (hexDigits_highNibble _).symm, hlow.trans (hexDigits_lowNibble _).symm⟩

end

section
/-! Faults (spec/60_exceptions.md R192 to R199): what a command word decodes to by its `op`, which commands enter a fault and
what that writes, and the steps of a faulted block. -/

namespace Sys2Proof.Machine

variable {s t : State}

/-! ### The command a word selects, by its `op` field (R83) -/

theorem opField_append_dataField (w : CommandWord) : (opField w ++ dataField w : BitVec (2 + 8)) = w :=
  (BitVec.extractLsb'_append_extractLsb'_eq_extractLsb' rfl).trans BitVec.extractLsb'_eq_self

/-- The mask column of the opcode map keeps `op` and clears `data`. -/
theorem and_opMask (w : CommandWord) : w &&& 0x300 = (opField w ++ 0#8 : BitVec (2 + 8)) := by
  conv_lhs => rw [← opField_append_dataField w]
  exact Laws.RowMatch.mask_append (opField w) (dataField w)

theorem decode_cases (w : CommandWord) :
    (opField w = 0 ∧ decode w = .init (dataField w)) ∨ (opField w = 1 ∧ decode w = .absorb (dataField w)) ∨
    (opField w = 2 ∧ decode w = .final (dataField w)) ∨ (opField w = 3 ∧ decode w = .rsvd (dataField w)) := by
  rw [decode, and_opMask]
  have hop : ∀ op : BitVec 2, op = 0 ∨ op = 1 ∨ op = 2 ∨ op = 3 := by decide
  obtain h | h | h | h := hop (opField w) <;> simp [h]

/-- The words 0x300 to 0x3ff are those with `op` = 11. -/
theorem opField_of_ge {w : CommandWord} (hw : 0x300 ≤ w.toNat) : opField w = 3 := by
  apply BitVec.eq_of_toNat_eq
  have hval : (opField w).toNat = w.toNat / 256 % 4 := by simp [opField, Nat.shiftRight_eq_div_pow]
  have hlt := w.isLt
  change (opField w).toNat = 3
  omega

theorem decode_of_ge {w : CommandWord} (hw : 0x300 ≤ w.toNat) : decode w = .rsvd (dataField w) := by
  simpa [opField_of_ge hw] using decode_cases w

/-! ### The phases outside a session (R192) -/

theorem Phase.inSession_eq_false_iff {p : Phase} : p.inSession = false ↔ p = .uninitialized ∨ p = .finalized := by
  cases p <;> decide

/-! ### The commands in the order of their checks (R196) -/

theorem exec_absorb_eq_ite (b : Byte) (hf : s.fault = false) :
    exec (.absorb b) s =
      if s.phase = .uninitialized ∨ s.phase = .finalized then .next (s.raiseFault .contractViolation)
      else if s.bufferLen = 63 ∧ s.totalBits = BitVec.ofNat 64 (2 ^ 64 - 512) then .next (s.raiseFault .lengthOverflow)
      else complete (absorbByte b s) := by
  simp only [← Phase.inSession_eq_false_iff, ← lengthExhausted_iff]
  cases hp : s.phase.inSession with
  | false => exact exec_absorb_of_closed hf hp
  | true =>
    cases hl : lengthExhausted s with
    | true => exact exec_absorb_of_exhausted hf hp hl
    | false => exact exec_absorb_of_admitted hf hp hl

theorem exec_final_eq_ite (d : Byte) (hf : s.fault = false) :
    exec (.final d) s =
      if s.phase = .uninitialized ∨ s.phase = .finalized then .next (s.raiseFault .contractViolation)
      else complete (finalize s) := by
  simp only [← Phase.inSession_eq_false_iff]
  cases hp : s.phase.inSession with
  | false => exact exec_final_of_closed hf hp
  | true => exact exec_final_of_admitted hf hp

/-! ### Which commands enter a fault (R197) -/

/-- A command accepted without a fault ends without one, or it is fault entry with one of the three causes. -/
theorem exec_fault_cases {i : Instr} (h : exec i s = .next t) (hf : s.fault = false) :
    t.fault = false ∨ t = s.raiseFault .illegalCommand ∨ t = s.raiseFault .contractViolation ∨
      t = s.raiseFault .lengthOverflow := by
  cases i with
  | init d =>
    cases (exec_init_of_live hf).symm.trans h
    exact .inl hf
  | absorb b =>
    obtain ⟨-, rfl⟩ | ⟨-, -, ht⟩ | ⟨-, -, -, ht⟩ | ⟨-, -, -, ht⟩ := execAbsorb_cases h
    · exact .inl hf
    · exact .inr (.inr (.inl ht))
    · exact .inr (.inr (.inr ht))
    · exact .inl ((absorbByte_phase_fault ht).2.trans hf)
  | final d =>
    obtain ⟨-, rfl⟩ | ⟨-, -, ht⟩ | ⟨-, -, ht⟩ := execFinal_cases h
    · exact .inl hf
    · exact .inr (.inr (.inl ht))
    · exact .inl ((finalize_phase_fault ht).2.trans hf)
  | rsvd d =>
    cases (exec_rsvd_of_live hf).symm.trans h
    exact .inr (.inl rfl)

/-! ### The step at a sample with a command, and after a fault (R82, R199) -/

theorem step_of_command {p : PortInput} {rest : List PortInput} (hi : s.inputs = p :: rest) (hr : p.rst = false)
    (hv : p.cmdValid = true) : step s = exec (decode p.word) (s.setInputs rest) := by
  have hp : p.event = .command p.word := by simp [PortInput.event, hr, hv]
  simp [step, hi, hp]

/-- A faulted block takes a sample without reset and changes nothing else, whether it carries a command or not. -/
theorem step_of_fault {p : PortInput} {rest : List PortInput} (hf : s.fault = true) (hi : s.inputs = p :: rest)
    (hr : p.rst = false) : step s = .next (s.setInputs rest) := by
  cases hv : p.cmdValid with
  | false => exact step_of_idle hi hr hv
  | true => exact (step_of_command hi hr hv).trans (exec_of_fault _ hf)

end Sys2Proof.Machine

open Sys2Proof Sys2Proof.Machine

/-- Settles O18, by the row of the word; ABSORB and FINAL each in the order of their own checks. -/
theorem orderOfChecks : Obligations.OrderOfChecks := by
  intro w s
  rw [← opField]
  by_cases hf : s.fault = true
  · rw [if_pos hf]
    exact exec_of_fault _ hf
  · rw [if_neg hf]
    rw [Bool.not_eq_true] at hf
    obtain ⟨hop, hi⟩ | ⟨hop, hi⟩ | ⟨hop, hi⟩ | ⟨hop, hi⟩ := decode_cases w
    · rw [hop, hi]
      exact exec_init_of_live hf
    · rw [hop, hi]
      exact exec_absorb_eq_ite _ hf
    · rw [hop, hi]
      exact exec_final_eq_ite _ hf
    · rw [hop, hi]
      exact exec_rsvd_of_live hf

/-- Settles O19: a command that ends in a fault is `raiseFault` with one of the three causes. -/
theorem faultEntryWritesNothingElse : Obligations.FaultEntryWritesNothingElse := by
  intro i s t h hf ht
  obtain hlive | rfl | rfl | rfl := exec_fault_cases h hf
  · simp [hlive] at ht
  · exact ⟨_, rfl, .inl ⟨rfl, rfl⟩⟩
  · exact ⟨_, rfl, .inr (.inl ⟨rfl, rfl⟩)⟩
  · exact ⟨_, rfl, .inr (.inr ⟨rfl, rfl⟩)⟩

/-- Settles O15: the two phases are those outside a session. -/
theorem contractViolationCases : Obligations.ContractViolationCases := by
  intro b s hf hphase
  have hp := Phase.inSession_eq_false_iff.2 hphase
  exact ⟨exec_absorb_of_closed hf hp, exec_final_of_closed hf hp⟩

/-- Settles O16: the words from 0x300 on decode to the reserved command. -/
theorem illegalCommandEverywhere : Obligations.IllegalCommandEverywhere := by
  refine ⟨fun d s hf => exec_rsvd_of_live hf, fun w s hw hf => ?_⟩
  rw [decode_of_ge hw]
  exact exec_rsvd_of_live hf

/-- Settles O20, by the step of a faulted block at a sample without reset and at one with it. -/
theorem faultIsStickyUntilReset : Obligations.FaultIsStickyUntilReset := by
  refine ⟨fun i s hf => exec_of_fault i hf, fun s p rest hf hi hr => step_of_fault hf hi hr, fun s p rest _ hi hr => ?_⟩
  exact ⟨_, step_of_rst hi hr, State.resetEvent_fault _, State.resetEvent_faultCause _, State.resetEvent_phase _⟩

end

section
/-! The reset event (spec/70_reset_and_hazards.md R220): the registers that hold no value in the reset state, and reset as
the only way out of a fault. -/

namespace Sys2Proof.Machine

variable {s t : State}

/-! ### The registers without a value (R35 f, R36) -/

theorem State.words?_of_uninitialized (h : s.phase = .uninitialized) : s.words? = none := if_pos h

theorem State.bufferLen?_of_uninitialized (h : s.phase = .uninitialized) : s.bufferLen? = none := if_pos h

theorem State.totalBits?_of_uninitialized (h : s.phase = .uninitialized) : s.totalBits? = none := if_pos h

@[simp] theorem State.resetEvent_read (s : State) (j : Nat) : s.resetEvent.buffer.read j = none := rfl

/-! ### The way out of a fault (R199, R220) -/

/-- With no sample to take the block idles (R208). -/
theorem step_of_noSample (hi : s.inputs = []) : step s = .next s := by
  simp [step, hi]

/-- A step out of a fault took a sample, and one with `rst` = 1: without it a faulted block only drops the sample. -/
theorem exists_rst_of_step_clears_fault (h : step s = .next t) (hs : s.fault = true) (ht : t.fault = false) :
    ∃ p rest, s.inputs = p :: rest ∧ p.rst = true := by
  cases hi : s.inputs with
  | nil =>
    cases (step_of_noSample hi).symm.trans h
    simp [hs] at ht
  | cons p rest =>
    refine ⟨p, rest, rfl, ?_⟩
    cases hr : p.rst with
    | true => rfl
    | false =>
      cases (step_of_fault hs hi hr).symm.trans h
      simp [hs] at ht

end Sys2Proof.Machine

open Sys2Proof Sys2Proof.Machine

/-- Settles O2: the step at a sample with reset is the reset event, which leaves the phase in which no data register holds
a value; a step out of a fault is `exists_rst_of_step_clears_fault`. -/
theorem resetEventWins : Obligations.ResetEventWins := by
  refine ⟨?reset, fun s t h hs ht => exists_rst_of_step_clears_fault h hs ht⟩
  case reset =>
    intro s p rest hi hr
    have hphase := State.resetEvent_phase (s.setInputs rest)
    have hvalid := State.resetEvent_digestValid (s.setInputs rest)
    exact ⟨_, step_of_rst hi hr, State.resetEvent_inputs _, hphase, State.resetEvent_fault _,
      State.resetEvent_faultCause _, hvalid, State.words?_of_uninitialized hphase,
      State.bufferLen?_of_uninitialized hphase, State.totalBits?_of_uninitialized hphase, State.resetEvent_read _,
      State.digestPort_of_invalid hvalid⟩

end

section
/-! Command words and port samples (spec/30_encoding.md R82 to R88): a word is `op` over `data`, decoding and encoding are
inverse, and the step runs what a sample's word decodes to. -/

namespace Sys2Proof.Machine

/-! ### The two fields of a word (R83) -/

theorem opField_append (op : BitVec 2) (d : Byte) : opField (op ++ d : BitVec (2 + 8)) = op :=
  BitVec.extractLsb'_append_eq_left

theorem dataField_append (op : BitVec 2) (d : Byte) : dataField (op ++ d : BitVec (2 + 8)) = d :=
  BitVec.extractLsb'_append_eq_right

/-! ### Decode and encode (R83) -/

theorem decode_encode (i : Instr) : decode (encode i) = i := by
  have hcases := decode_cases (encode i)
  cases i with
  | init d => simpa [encode, opField_append, dataField_append] using hcases
  | absorb b => simpa [encode, opField_append, dataField_append] using hcases
  | final d => simpa [encode, opField_append, dataField_append] using hcases
  | rsvd d => simpa [encode, opField_append, dataField_append] using hcases

theorem encode_decode (w : CommandWord) : encode (decode w) = w := by
  have hword : ∀ op, opField w = op → (op ++ dataField w : BitVec (2 + 8)) = w := by
    rintro _ rfl
    exact opField_append_dataField w
  obtain ⟨hop, hi⟩ | ⟨hop, hi⟩ | ⟨hop, hi⟩ | ⟨hop, hi⟩ := decode_cases w
  · exact hi ▸ hword _ hop
  · exact hi ▸ hword _ hop
  · exact hi ▸ hword _ hop
  · exact hi ▸ hword _ hop

theorem decodeNat_of_lt {n : Nat} (hn : n < 1024) : decodeNat n = .ok (decode (BitVec.ofNat 10 n)) :=
  if_pos (decide_eq_true hn)

theorem decodeNat_of_ge {n : Nat} (hn : 1024 ≤ n) : decodeNat n = .error (.notACommandWord n) :=
  if_neg (by simpa [commandWordFits] using hn)

/-- A table word that decodes is a command word, read as such. -/
theorem decodeTableWord_eq_some {nbits n : Nat} {i : Instr} (h : decodeTableWord nbits n = some i) :
    decode (BitVec.ofNat 10 (n % 2 ^ nbits)) = i := by
  obtain hn | hn := Nat.lt_or_ge (n % 2 ^ nbits) 1024
  · rw [decodeTableWord, decodeNat_of_lt hn] at h
    exact Option.some.inj h
  · rw [decodeTableWord, decodeNat_of_ge hn] at h
    cases h

/-- At ten bits or more the table word is the whole command word (log 11). -/
theorem decodeTableWord_toNat (w : CommandWord) {nbits : Nat} (hn : 10 ≤ nbits) :
    decodeTableWord nbits w.toNat = some (decode w) := by
  have hfits : w.toNat < 2 ^ nbits := w.isLt.trans_le (Nat.pow_le_pow_right (by decide) hn)
  rw [decodeTableWord, Nat.mod_eq_of_lt hfits, decodeNat_of_lt w.isLt, BitVec.ofNat_toNat, BitVec.setWidth_eq]

/-- The rows of the opcode map that select a command's word are its own alone. -/
theorem rowMatch (i : Instr) : Laws.RowMatch.Statement i := by
  cases i with
  | init d => exact Laws.RowMatch.init d
  | absorb b => exact Laws.RowMatch.absorb b
  | final d => exact Laws.RowMatch.final d
  | rsvd d => exact Laws.RowMatch.rsvd d

/-! ### The sample that presents a word (R82, log 3) -/

theorem PortInput.word_ofWord (w : CommandWord) : (PortInput.ofWord w).word = w := opField_append_dataField w

@[simp] theorem PortInput.event_ofWord (w : CommandWord) : (PortInput.ofWord w).event = .command w :=
  congrArg PortEvent.command (PortInput.word_ofWord w)

theorem step_of_ofWord {s : State} {w : CommandWord} {rest : List PortInput}
    (hi : s.inputs = PortInput.ofWord w :: rest) : step s = exec (decode w) (s.setInputs rest) := by
  rw [step_of_command hi rfl rfl, PortInput.word_ofWord]

/-! ### The words of a script (R87, R88) -/

/-- R87's spelling of an ABSORB word, 0x100 + b. -/
theorem absorbWord_eq_encode (b : Byte) : 0x100 + b.setWidth 10 = encode (.absorb b) := by
  revert b; decide +kernel

theorem updateWords_eq_map_encode (bs : List Byte) : updateWords bs = bs.map fun b => encode (.absorb b) :=
  List.map_congr_left fun b _ => absorbWord_eq_encode b

theorem events_updateWords (bs : List Byte) :
    ((updateWords bs).map PortInput.ofWord).map PortInput.event = bs.map fun b => .command (encode (.absorb b)) := by
  simp [updateWords_eq_map_encode]

/-- An ASCII code fits a byte (log 15). -/
theorem toNat_bytes_text {cs : List Char} (h : (ScriptData.text cs).wf = true) :
    (ScriptData.text cs).bytes.map BitVec.toNat = cs.map Char.toNat := by
  rw [ScriptData.bytes, List.map_map]
  refine List.map_congr_left fun c hc => ?_
  have hascii : c.toNat < 128 := of_decide_eq_true (List.all_eq_true.1 h c hc)
  exact Nat.mod_eq_of_lt (by omega)

end Sys2Proof.Machine

open Sys2Proof Sys2Proof.Machine

/-- Settles O6: the four rows differ in `op`, and a word is its two fields. -/
theorem decodeEncodeAgree : Obligations.DecodeEncodeAgree := by
  refine ⟨decode_encode, encode_decode, fun i nbits hn => ?table, fun w hw => decodeNat_of_ge hw⟩
  case table => rw [decodeTableWord_toNat _ hn, decode_encode]

/-- Settles O9: the words of R87 are the encoded commands, and the sample that presents a word asks for it. -/
theorem scriptExpansion : Obligations.ScriptExpansion :=
  ⟨fun d => events_updateWords d.bytes, fun _ => rfl, fun b => events_updateWords [b],
    congrArg List.singleton (PortInput.event_ofWord _), congrArg List.singleton (PortInput.event_ofWord _),
    congrArg List.singleton (PortInput.event_ofWord _), rfl, rfl, fun _ h => toNat_bytes_text h, fun _ => rfl,
    fun _ _ => rfl⟩

/-- Settles O3, for a sample with a command, one without, and no sample. -/
theorem stepRunsDecodedCommand : Obligations.StepRunsDecodedCommand :=
  ⟨fun _ _ _ hi hr hv => step_of_command hi hr hv, fun _ _ _ hi hr hv => step_of_idle hi hr hv,
    fun _ hi => step_of_noSample hi⟩

/-- Settles O4: the step takes the placed sample, which leaves the samples that stood behind it. -/
theorem placedWordRuns : Obligations.PlacedWordRuns := by
  intro s nbits w i h
  rw [← decodeTableWord_eq_some h]
  exact step_of_ofWord (s := s.withFetchWord nbits w) rfl

/-- Settles O5: a word is the word of the command it decodes to, whose row is its own. -/
theorem everyWordSelectsOneRow : Obligations.EveryWordSelectsOneRow := by
  refine fun w => ⟨?rows, ?operand⟩
  case rows =>
    have hrows := rowMatch (decode w)
    rwa [Laws.RowMatch.Statement, encode_decode] at hrows
  case operand =>
    obtain ⟨-, hi⟩ | ⟨-, hi⟩ | ⟨-, hi⟩ | ⟨-, hi⟩ := decode_cases w
    · exact .inl hi
    · exact .inr (.inl hi)
    · exact .inr (.inr (.inl hi))
    · exact .inr (.inr (.inr hi))

/-- Settles O7: ten closed words. -/
theorem writtenWordsDecode : Obligations.WrittenWordsDecode := by
  unfold Obligations.WrittenWordsDecode
  decide

/-- Settles O8: no meaning but ABSORB's reads its operand. -/
theorem dataFieldIgnored : Obligations.DataFieldIgnored :=
  fun _ _ _ => ⟨rfl, rfl, rfl⟩

end

section
/-! The invariants (spec/10_state.md R35, spec/20_memory.md R66): each named update keeps them, no command stops in a state
that meets them, and the bit count is exact there. -/

namespace Sys2Proof.Machine

variable {s t : State} {b d : Byte}

/-! ### The updates that no session needs (R161, R197, R220) -/

theorem State.reset_inv : State.reset.Inv where
  cause := by decide
  blocks := by decide
  fresh := by decide
  valid := by decide
  result := by decide
  absent := fun _ => rfl
  form := Memory.wf_reset
  tail := by decide

/-- No invariant speaks of the samples to come. -/
theorem State.Inv.setInputs (hs : s.Inv) (ps : List PortInput) : (s.setInputs ps).Inv :=
  ⟨hs.cause, hs.blocks, hs.fresh, hs.valid, hs.result, hs.absent, hs.form, hs.tail⟩

theorem State.resetEvent_inv (s : State) : s.resetEvent.Inv := State.reset_inv.setInputs s.inputs

theorem State.Inv.raiseFault (hs : s.Inv) {c : FaultCause} (hc : c ≠ .none) : (s.raiseFault c).Inv :=
  ⟨by simp [hc], hs.blocks, hs.fresh, hs.valid, hs.result, hs.absent, hs.form, hs.tail⟩

theorem State.Inv.openSession (hs : s.Inv) : s.openSession.Inv where
  cause := hs.cause
  blocks := fun _ => rfl
  fresh := fun _ => ⟨rfl, rfl, rfl⟩
  valid := by simp
  result := by simp
  absent := by simp
  form := hs.form
  tail := by simp

/-! ### ABSORB (R162) -/

theorem Phase.ne_finalized_of_inSession {p : Phase} (hp : p.inSession = true) : p ≠ .finalized := by
  rintro rfl
  cases hp

theorem State.Inv.digestValid_of_inSession (hs : s.Inv) (hp : s.phase.inSession = true) : s.digestValid = false :=
  hs.digestValid_of_ne (Phase.ne_finalized_of_inSession hp)

/-- A block more is a whole block more, even where the sum wraps. -/
theorem toNat_add64_blockBits_mod {x : Word64} (hx : x.toNat % 512 = 0) : (add64 x 512).toNat % 512 = 0 := by
  have hsum : (add64 x 512).toNat = (x.toNat + 512) % 2 ^ 64 := BitVec.toNat_add x 512
  omega

/-- Short of the length bound the sum does not wrap. -/
theorem toNat_add64_blockBits {x : Word64} (hx : x.toNat % 512 = 0) (hbound : x ≠ BitVec.ofNat 64 (2 ^ 64 - 512)) :
    (add64 x 512).toNat = x.toNat + 512 := by
  have hne : x.toNat ≠ 2 ^ 64 - 512 := fun h => hbound (BitVec.eq_of_toNat_eq h)
  have hlt := x.isLt
  have hsum : (add64 x 512).toNat = (x.toNat + 512) % 2 ^ 64 := BitVec.toNat_add x 512
  omega

theorem toNat_succ_of_ne {n : BitVec 6} (hn : n ≠ 63) : (n + 1).toNat = n.toNat + 1 := by
  have hne : n.toNat ≠ 63 := fun h => hn (BitVec.eq_of_toNat_eq h)
  have hlt := n.isLt
  have hsum : (n + 1).toNat = (n.toNat + 1) % 2 ^ 6 := BitVec.toNat_add n 1
  omega

theorem absorbByte_keeps_inv (hs : s.Inv) (hp : s.phase.inSession = true) (h : absorbByte b s = some t) : t.Inv := by
  have hvalid := hs.digestValid_of_inSession hp
  have hform := Memory.wf_write (v := b) s.bufferLen.isLt hs.form
  obtain ⟨hn, rfl⟩ | ⟨hn, B, -, rfl⟩ := absorbByte_cases h
  · refine ⟨hs.cause, fun _ => hs.blocks hp, by simp, by simp [hvalid], by simp, by simp, hform, fun _ j hj => ?_⟩
    rw [State.nextByte_bufferLen, State.setBuffer_bufferLen, toNat_succ_of_ne hn] at hj
    rw [State.nextByte_buffer, State.setBuffer_buffer, Memory.read_write]
    split
    · rfl
    · exact hs.tail hp j (by omega)
  · rw [hn] at hform
    exact ⟨hs.cause, fun _ => toNat_add64_blockBits_mod (hs.blocks hp), by simp, by simp [hvalid], by simp, by simp,
      hform, by simp⟩

/-! ### The bit count (R24, R35 b, R123) -/

/-- In a session the whole blocks leave room for a tail below 2^64 bits. -/
theorem State.Inv.bits_le (hs : s.Inv) (hp : s.phase.inSession = true) :
    s.totalBits.toNat + 8 * s.bufferLen.toNat ≤ 2 ^ 64 - 8 := by
  have hblocks := hs.blocks hp
  have hbits := s.totalBits.isLt
  have hlen := s.bufferLen.isLt
  omega

/-- L is the exact sum, which does not wrap (R123). -/
theorem State.Inv.toNat_messageBits (hs : s.Inv) (hp : s.phase.inSession = true) :
    (messageBits s).toNat = s.totalBits.toNat + 8 * s.bufferLen.toNat := by
  have hle := hs.bits_le hp
  have hsum : (messageBits s).toNat = (s.totalBits.toNat + 8 * s.bufferLen.toNat % 2 ^ 64) % 2 ^ 64 := by
    rw [messageBits_eq, BitVec.toNat_add, BitVec.toNat_ofNat]
  omega

/-- A byte taken is eight bits more. -/
theorem State.Inv.absorbByte_bits (hs : s.Inv) (hp : s.phase.inSession = true) (hl : lengthExhausted s = false)
    (h : absorbByte b s = some t) :
    t.totalBits.toNat + 8 * t.bufferLen.toNat = s.totalBits.toNat + 8 * s.bufferLen.toNat + 8 := by
  obtain ⟨hn, rfl⟩ | ⟨hn, B, -, rfl⟩ := absorbByte_cases h
  · simp only [State.nextByte_totalBits, State.nextByte_bufferLen, State.setBuffer_totalBits, State.setBuffer_bufferLen,
      toNat_succ_of_ne hn, Nat.mul_add, Nat.add_assoc]
  · have hbits := toNat_add64_blockBits (hs.blocks hp) (lengthExhausted_eq_false_iff.1 hl hn)
    simp only [State.nextBlock_totalBits, State.nextBlock_bufferLen, State.setWords_totalBits, State.setBuffer_totalBits,
      hbits, hn, BitVec.reduceToNat]

/-! ### FINAL (R164, R169) -/

theorem pad_keeps_cause_inputs (h : pad s = some t) : t.faultCause = s.faultCause ∧ t.inputs = s.inputs := by
  obtain ⟨-, B, -, rfl⟩ | ⟨-, B1, B2, -, -, rfl⟩ := pad_cases h
  · simp
  · simp

theorem pad_totalBits (h : pad s = some t) : t.totalBits = messageBits s := by
  obtain ⟨-, B, -, rfl⟩ | ⟨-, B1, B2, -, -, rfl⟩ := pad_cases h
  · simp
  · simp

theorem pad_wf (h : pad s = some t) (hform : s.buffer.wf = true) : t.buffer.wf = true := by
  obtain ⟨-, B, -, rfl⟩ | ⟨-, B1, B2, -, -, rfl⟩ := pad_cases h
  · simpa using wf_onlyPadBuffer hform
  · simpa using wf_secondPadBuffer hform

theorem State.Inv.closeSession_of_pad (hs : s.Inv) (hp : s.phase.inSession = true) (h : pad s = some t) :
    t.closeSession.Inv := by
  obtain ⟨hcause, -⟩ := pad_keeps_cause_inputs h
  have hbytes : t.totalBits.toNat % 8 = 0 := by
    have hblocks := hs.blocks hp
    rw [pad_totalBits h, hs.toNat_messageBits hp]
    omega
  have hform := pad_wf h hs.form
  refine ⟨?cause, by simp [Phase.inSession], by simp, by simp, fun _ => ⟨rfl, rfl, hbytes⟩, by simp, hform, by simp⟩
  case cause => simpa [hcause, pad_keeps_fault h] using hs.cause

/-! ### Every command and every step keeps the invariants -/

theorem exec_keeps_inv (hs : s.Inv) {i : Instr} (h : exec i s = .next t) : t.Inv := by
  cases i with
  | init d =>
    obtain ⟨-, rfl⟩ | ⟨-, rfl⟩ := execInit_cases h
    · exact hs
    · exact hs.openSession
  | absorb b =>
    obtain ⟨-, rfl⟩ | ⟨-, -, rfl⟩ | ⟨-, -, -, rfl⟩ | ⟨-, hp, -, ht⟩ := execAbsorb_cases h
    · exact hs
    · exact hs.raiseFault (by decide)
    · exact hs.raiseFault (by decide)
    · exact absorbByte_keeps_inv hs hp ht
  | final d =>
    obtain ⟨-, rfl⟩ | ⟨-, -, rfl⟩ | ⟨-, hp, ht⟩ := execFinal_cases h
    · exact hs
    · exact hs.raiseFault (by decide)
    · obtain ⟨u, hu, rfl⟩ := finalize_cases ht
      exact hs.closeSession_of_pad hp hu
  | rsvd d =>
    obtain ⟨-, rfl⟩ | ⟨-, rfl⟩ := execRsvd_cases h
    · exact hs
    · exact hs.raiseFault (by decide)

theorem step_keeps_inv (hs : s.Inv) (h : step s = .next t) : t.Inv := by
  obtain ⟨-, hstep⟩ | ⟨p, rest, -, -, hstep⟩ | ⟨p, rest, -, -, hstep⟩ | ⟨p, rest, w, -, -, hstep⟩ := step_cases s
  · cases hstep.symm.trans h
    exact hs
  · cases hstep.symm.trans h
    exact hs.setInputs rest
  · cases hstep.symm.trans h
    exact State.resetEvent_inv _
  · exact exec_keeps_inv (hs.setInputs rest) (hstep.symm.trans h)

/-! ### When a command stops (R37, log 2) -/

theorem absorbByte_eq_none_iff :
    absorbByte b s = none ↔ s.bufferLen = 63 ∧ ∃ j, j < 63 ∧ s.buffer.read j = none := by
  by_cases hn : s.bufferLen = 63
  · have hnone : absorbByte b s = none ↔ (s.buffer.write 63 b).block = none := by
      rw [absorbByte, if_pos hn, hn, Option.map_eq_none_iff, compressBuffer_eq_none]
      rfl
    rw [hnone, Memory.block, Memory.readBytes_eq_none]
    simp only [Nat.zero_add, Memory.read_write, hn, true_and]
    constructor
    · rintro ⟨j, hj, hread⟩
      split at hread
      · cases hread
      · exact ⟨j, by omega, hread⟩
    · rintro ⟨j, hj, hread⟩
      exact ⟨j, by omega, by rw [if_neg (by omega), hread]⟩
  · rw [absorbByte_partial hn]
    exact iff_of_false (Option.some_ne_none _) fun h => hn h.1

/-- PAD compresses the tail, so it stops where a tail byte has no value; it writes every other byte it compresses. -/
theorem pad_eq_none_iff : pad s = none ↔ ∃ j, j < s.bufferLen.toNat ∧ s.buffer.read j = none := by
  constructor
  · intro h
    by_contra! hall
    obtain ⟨t, ht⟩ := pad_isSome fun j hj => Option.isSome_iff_ne_none.2 (hall j hj)
    rw [ht] at h
    cases h
  · rintro ⟨j, hj, hread⟩
    by_contra hsome
    obtain ⟨t, ht⟩ := Option.ne_none_iff_exists'.1 hsome
    have hlt := s.bufferLen.isLt
    obtain ⟨hn, B, hB, -⟩ | ⟨hn, B1, B2, hB, -, -⟩ := pad_cases ht
    · have hblock : (onlyPadBuffer s).block = none := (Memory.readBytes_eq_none _ _ _).2 ⟨j, by omega, by
        rw [Nat.zero_add, read_onlyPadBuffer, if_neg (by omega), if_neg (by omega), if_neg (by omega), hread]⟩
      rw [hB] at hblock
      cases hblock
    · have hblock : (firstPadBuffer s).block = none := (Memory.readBytes_eq_none _ _ _).2 ⟨j, by omega, by
        rw [Nat.zero_add, read_firstPadBuffer, if_neg (by omega), if_neg (by omega), hread]⟩
      rw [hB] at hblock
      cases hblock

theorem exec_absorb_eq_fault_iff {r : Fault} :
    exec (.absorb b) s = .fault r ↔
      s.fault = false ∧ s.phase.inSession = true ∧ lengthExhausted s = false ∧ absorbByte b s = none := by
  cases hf : s.fault with
  | true => simp [exec_of_fault (.absorb b) hf]
  | false =>
    cases hp : s.phase.inSession with
    | false => simp [exec_absorb_of_closed hf hp]
    | true =>
      cases hl : lengthExhausted s with
      | true => simp [exec_absorb_of_exhausted hf hp hl]
      | false => simp [exec_absorb_of_admitted hf hp hl, complete_eq_fault]

theorem exec_final_eq_fault_iff {r : Fault} :
    exec (.final d) s = .fault r ↔ s.fault = false ∧ s.phase.inSession = true ∧ pad s = none := by
  cases hf : s.fault with
  | true => simp [exec_of_fault (.final d) hf]
  | false =>
    cases hp : s.phase.inSession with
    | false => simp [exec_final_of_closed hf hp]
    | true => simp [exec_final_of_admitted hf hp, complete_eq_fault, finalize]

theorem exec_ne_refused (i : Instr) (s : State) (r : Refusal) : exec i s ≠ .refused r := by
  cases hf : s.fault with
  | true => simp [exec_of_fault i hf]
  | false =>
    cases i with
    | init d => simp [exec_init_of_live hf]
    | absorb b =>
      rw [exec_absorb_eq_ite b hf]
      split_ifs
      · simp
      · simp
      · exact complete_ne_refused
    | final d =>
      rw [exec_final_eq_ite d hf]
      split_ifs
      · simp
      · exact complete_ne_refused
    | rsvd d => simp [exec_rsvd_of_live hf]

/-- FINAL in a session is PAD and the end of the session. -/
theorem State.Inv.exec_final (hs : s.Inv) (hf : s.fault = false) (hp : s.phase.inSession = true) :
    ∃ u, pad s = some u ∧ exec (.final d) s = .next u.closeSession := by
  obtain ⟨u, hu⟩ := pad_isSome (hs.tail hp)
  exact ⟨u, hu, by rw [exec_final_of_admitted hf hp, complete_eq_next, finalize, hu, Option.map_some]⟩

/-- Where the tail has been written (R66) ABSORB goes on. -/
theorem State.Inv.exists_exec_absorb (hs : s.Inv) (b : Byte) : ∃ t, exec (.absorb b) s = .next t := by
  cases hexec : exec (.absorb b) s with
  | next t => exact ⟨t, rfl⟩
  | refused r => exact absurd hexec (exec_ne_refused _ s r)
  | fault r =>
    obtain ⟨-, hp, -, hnone⟩ := exec_absorb_eq_fault_iff.1 hexec
    obtain ⟨hn, j, hj, hread⟩ := absorbByte_eq_none_iff.1 hnone
    simpa [hread] using hs.tail hp j (by simpa [hn] using hj)

theorem State.Inv.exists_exec_next (hs : s.Inv) (i : Instr) : ∃ t, exec i s = .next t := by
  cases hf : s.fault with
  | true => exact ⟨s, exec_of_fault i hf⟩
  | false =>
    cases i with
    | init d => exact ⟨_, exec_init_of_live hf⟩
    | absorb b => exact hs.exists_exec_absorb b
    | final d =>
      cases hp : s.phase.inSession with
      | false => exact ⟨_, exec_final_of_closed hf hp⟩
      | true =>
        obtain ⟨u, -, hexec⟩ := hs.exec_final hf hp
        exact ⟨_, hexec⟩
    | rsvd d => exact ⟨_, exec_rsvd_of_live hf⟩

theorem State.Inv.exists_step_next (hs : s.Inv) : ∃ t, step s = .next t := by
  obtain ⟨-, hstep⟩ | ⟨p, rest, -, -, hstep⟩ | ⟨p, rest, -, -, hstep⟩ | ⟨p, rest, w, -, -, hstep⟩ := step_cases s
  · exact ⟨_, hstep⟩
  · exact ⟨_, hstep⟩
  · exact ⟨_, hstep⟩
  · rw [hstep]
    exact (hs.setInputs rest).exists_exec_next _

end Sys2Proof.Machine

open Sys2Proof Sys2Proof.Machine

/-- Settles O31, by the update each command and each event of the port is. -/
theorem stepKeepsInvariants : Obligations.StepKeepsInvariants :=
  fun _ _ hs h => step_keeps_inv hs h

/-- Settles O30: the base of `stepKeepsInvariants`. -/
theorem resetMeetsInvariants : Obligations.ResetMeetsInvariants :=
  State.reset_inv

/-- Settles O32: a command stops only at an unwritten tail byte, and R66 says there is none. -/
theorem invariantStatesNeverStop : Obligations.InvariantStatesNeverStop :=
  fun _ hs => hs.exists_step_next

/-- Settles O21, command by command. -/
theorem noCommandIsUnmodelled : Obligations.NoCommandIsUnmodelled :=
  exec_ne_refused

/-- Settles O22: the checks admit the command, and then COMPRESS reads a byte without a value. -/
theorem stopsOnlyOnUnwrittenTail : Obligations.StopsOnlyOnUnwrittenTail := by
  refine ⟨fun b s r => ?absorb, fun d s r => ?final⟩
  case absorb =>
    rw [exec_absorb_eq_fault_iff, absorbByte_eq_none_iff, lengthExhausted_eq_false_iff]
    constructor
    · rintro ⟨hf, hp, hroom, hn, hread⟩
      exact ⟨hf, hp, hn, hroom hn, hread⟩
    · rintro ⟨hf, hp, hn, hroom, hread⟩
      exact ⟨hf, hp, fun _ => hroom, hn, hread⟩
  case final => rw [exec_final_eq_fault_iff, pad_eq_none_iff]

/-- Settles O14: PAD answers since the tail has been written, and settles `totalBits` as the exact sum. -/
theorem stateAfterFinal : Obligations.StateAfterFinal := by
  intro d s hs hf hp
  obtain ⟨u, hu, hexec⟩ := hs.exec_final (d := d) hf hp
  have hbits : u.totalBits.toNat = s.totalBits.toNat + 8 * s.bufferLen.toNat := by
    rw [pad_totalBits hu, hs.toNat_messageBits hp]
  exact ⟨u.closeSession, hexec, rfl, rfl, rfl, rfl, hbits, (pad_keeps_fault hu).trans hf, rfl⟩

/-- Settles O17: the three cases by the length check, and the value of L at the bound. -/
theorem lengthBoundary : Obligations.LengthBoundary := by
  refine ⟨fun b s hf hp hn hbound => exec_absorb_of_exhausted hf hp ((lengthExhausted_iff s).2 ⟨hn, hbound⟩),
    fun b s hs hf hp hroom => ?below, fun d s hs hf hp hn hbound => ?final⟩
  case below =>
    obtain ⟨t, ht⟩ := hs.exists_exec_next (.absorb b)
    obtain ⟨-, htf⟩ := exec_absorb_accepts ht hf hp (lengthExhausted_eq_false_iff.2 (not_and.1 hroom))
    exact ⟨t, ht, htf⟩
  case final =>
    obtain ⟨u, hu, hexec⟩ := hs.exec_final (d := d) hf hp
    refine ⟨u.closeSession, hexec, (pad_keeps_fault hu).trans hf, ?_⟩
    rw [State.closeSession_totalBits, pad_totalBits hu, messageBits_eq, hn, hbound]
    rfl

/-- Settles O26, by the two ways a byte is taken; the bound by the whole blocks of R35 (b). -/
theorem bitCountAdvances : Obligations.BitCountAdvances := by
  refine ⟨fun b s t hs hp h hf htf => ?advance, fun s hs hp => hs.bits_le hp⟩
  case advance =>
    obtain ⟨hsf, -⟩ | ⟨-, -, rfl⟩ | ⟨-, -, -, rfl⟩ | ⟨-, -, hl, ht⟩ := execAbsorb_cases h
    · simp [hf] at hsf
    · simp at htf
    · simp at htf
    · exact hs.absorbByte_bits hp hl ht

end

section
/-! Agreement (spec/10_state.md R36 to R39, spec/20_memory.md R66): states that differ only in what holds no value take
the same steps and show the same at the ports. -/

namespace Sys2Proof.Machine

variable {s t : State}

/-! ### The updates that read nothing (R161, R197, R220) -/

theorem State.Agree.setInputs (h : s.Agree t) (ps : List PortInput) : (s.setInputs ps).Agree (t.setInputs ps) :=
  ⟨h.phase, h.fault, h.cause, h.valid, rfl, h.digest, h.words, h.bufferLen, h.totalBits, h.tail⟩

theorem State.Agree.raiseFault (h : s.Agree t) (c : FaultCause) : (s.raiseFault c).Agree (t.raiseFault c) :=
  ⟨h.phase, rfl, rfl, h.valid, h.inputs, h.digest, h.words, h.bufferLen, h.totalBits, h.tail⟩

/-- Reset keeps only the samples to come. -/
theorem State.Agree.resetEvent (h : s.Agree t) : s.resetEvent.Agree t.resetEvent := by
  have heq : s.resetEvent = t.resetEvent := by rw [State.resetEvent, State.resetEvent, h.inputs]
  rw [heq]
  exact ⟨rfl, rfl, rfl, rfl, rfl, fun _ => rfl, fun _ => rfl, fun _ => rfl, fun _ => rfl, fun _ _ _ => rfl⟩

/-- INIT owes nothing to the old session (R38). -/
theorem State.agree_openSession (hf : s.fault = t.fault) (hc : s.faultCause = t.faultCause) (hi : s.inputs = t.inputs) :
    s.openSession.Agree t.openSession :=
  ⟨rfl, hf, hc, rfl, hi, by simp, fun _ => rfl, fun _ => rfl, fun _ => rfl, by simp⟩

/-! ### ABSORB (R162) -/

theorem State.Agree.inSession_eq (h : s.Agree t) : s.phase.inSession = t.phase.inSession :=
  congrArg Phase.inSession h.phase

theorem State.Agree.lengthExhausted_eq (h : s.Agree t) (hp : s.phase.inSession = true) :
    lengthExhausted s = lengthExhausted t := by
  rw [lengthExhausted, lengthExhausted, h.bufferLen hp, h.totalBits hp]

/-- The registers ABSORB and FINAL read agree, and so does the tail. -/
theorem State.Agree.unwritten_iff (h : s.Agree t) (hp : s.phase.inSession = true) {n : Nat}
    (hn : n ≤ s.bufferLen.toNat) :
    (∃ j, j < n ∧ s.buffer.read j = none) ↔ ∃ j, j < n ∧ t.buffer.read j = none := by
  refine exists_congr fun j => and_congr_right fun hj => ?_
  rw [h.tail hp j (by omega)]

theorem State.Agree.absorbByte_eq_none_iff (h : s.Agree t) (hp : s.phase.inSession = true) (b : Byte) :
    absorbByte b s = none ↔ absorbByte b t = none := by
  rw [Machine.absorbByte_eq_none_iff, Machine.absorbByte_eq_none_iff, ← h.bufferLen hp]
  exact and_congr_right fun hn => h.unwritten_iff hp (by simp [hn])

/-- The byte written at the end of two tails that agree. -/
theorem State.Agree.read_write (h : s.Agree t) (hp : s.phase.inSession = true) (b : Byte) {j : Nat}
    (hj : j ≤ s.bufferLen.toNat) :
    (s.buffer.write s.bufferLen.toNat b).read j = (t.buffer.write s.bufferLen.toNat b).read j := by
  rw [Memory.read_write, Memory.read_write]
  split
  · rfl
  · exact h.tail hp j (by omega)

theorem agree_absorbByte {s' t' : State} {b : Byte} (h : s.Agree t) (hp : s.phase.inSession = true)
    (hs : absorbByte b s = some s') (ht : absorbByte b t = some t') : s'.Agree t' := by
  have hlen := h.bufferLen hp
  have hread := fun j => h.read_write hp b (j := j)
  obtain ⟨hn, rfl⟩ | ⟨hn, B, hB, rfl⟩ := absorbByte_cases hs
  · rw [absorbByte_partial (hlen ▸ hn)] at ht
    cases ht
    refine ⟨rfl, h.fault, h.cause, h.valid, h.inputs, h.digest, fun _ => h.words hp, fun _ => ?_, fun _ => h.totalBits hp,
      fun _ j hj => ?_⟩
    · simp [hlen]
    · rw [State.nextByte_bufferLen, State.setBuffer_bufferLen, toNat_succ_of_ne hn] at hj
      simpa [hlen] using hread j (by omega)
  · have hblock : (t.buffer.write 63 b).block = some B := by
      rw [← hB]
      refine (Memory.block_congr fun j hj => ?_).symm
      simpa [hn] using hread j (by simp [hn]; omega)
    rw [absorbByte_full (hlen ▸ hn) hblock] at ht
    cases ht
    exact ⟨by simp, by simp [h.fault], by simp [h.cause], by simp [h.valid], by simp [h.inputs], by simpa using h.digest,
      by simp [h.words hp], by simp, by simp [h.totalBits hp], by simp⟩

/-! ### FINAL (R164) -/

theorem State.Agree.messageBits_eq (h : s.Agree t) (hp : s.phase.inSession = true) : messageBits s = messageBits t := by
  rw [messageBits, messageBits, h.bufferLen hp, h.totalBits hp]

theorem State.Agree.block_onlyPadBuffer (h : s.Agree t) (hp : s.phase.inSession = true) :
    (onlyPadBuffer s).block = (onlyPadBuffer t).block := by
  refine Memory.block_congr fun j hj => ?_
  rw [read_onlyPadBuffer, read_onlyPadBuffer, h.messageBits_eq hp, h.bufferLen hp]
  split_ifs
  · rfl
  · rfl
  · rfl
  · exact h.tail hp j (by rw [h.bufferLen hp]; omega)

theorem State.Agree.block_firstPadBuffer (h : s.Agree t) (hp : s.phase.inSession = true) :
    (firstPadBuffer s).block = (firstPadBuffer t).block := by
  refine Memory.block_congr fun j hj => ?_
  rw [read_firstPadBuffer, read_firstPadBuffer, h.bufferLen hp]
  split_ifs
  · rfl
  · rfl
  · exact h.tail hp j (by rw [h.bufferLen hp]; omega)

/-- The second block is the same wherever L is: the buffer was cleared (R154). -/
theorem block_secondPadBuffer (s : State) :
    (secondPadBuffer s).block = some (List.replicate 56 0 ++ be64Unpack (messageBits s)) :=
  (holds_secondPadBuffer s).block_eq (length_secondPadBlock _)

theorem State.Agree.pad_words {s' t' : State} (h : s.Agree t) (hp : s.phase.inSession = true) (hs : pad s = some s')
    (ht : pad t = some t') : s'.words = t'.words := by
  have hlen := h.bufferLen hp
  obtain ⟨hn, B, hB, rfl⟩ | ⟨hn, B1, B2, hB1, hB2, rfl⟩ := pad_cases hs
  · rw [h.block_onlyPadBuffer hp] at hB
    rw [pad_one (hlen ▸ hn) hB] at ht
    cases ht
    simp [h.words hp]
  · rw [h.block_firstPadBuffer hp] at hB1
    rw [block_secondPadBuffer, h.messageBits_eq hp, ← block_secondPadBuffer] at hB2
    rw [pad_two (hlen ▸ hn) hB1 hB2] at ht
    cases ht
    simp [h.words hp]

/-- After FINAL only the digest is asked for, which is read off the words (R169). -/
theorem State.Agree.closeSession_of_pad {s' t' : State} (h : s.Agree t) (hp : s.phase.inSession = true)
    (hs : pad s = some s') (ht : pad t = some t') : s'.closeSession.Agree t'.closeSession := by
  obtain ⟨hsc, hsi⟩ := pad_keeps_cause_inputs hs
  obtain ⟨htc, hti⟩ := pad_keeps_cause_inputs ht
  have hwords := h.pad_words hp hs ht
  exact ⟨rfl, by simp [pad_keeps_fault hs, pad_keeps_fault ht, h.fault], by simp [hsc, htc, h.cause], rfl,
    by simp [hsi, hti, h.inputs], fun _ => congrArg serialize hwords, fun _ => hwords, fun _ => rfl,
    by simp [Phase.inSession], by simp⟩

/-! ### Every command and every step keeps agreement -/

/-- Two ends of a command agree when both or neither answer, with states that agree. -/
theorem outcomeAgree_complete {o o' : Option State} (hnone : o = none ↔ o' = none)
    (hsome : ∀ u u', o = some u → o' = some u' → u.Agree u') : OutcomeAgree (complete o) (complete o') := by
  cases o with
  | none =>
    rw [hnone.1 rfl]
    rfl
  | some u =>
    cases o' with
    | none => cases hnone.2 rfl
    | some u' => exact hsome u u' rfl rfl

theorem outcomeAgree_exec_absorb (h : s.Agree t) (b : Byte) (hf : s.fault = false) :
    OutcomeAgree (exec (.absorb b) s) (exec (.absorb b) t) := by
  have hft : t.fault = false := h.fault ▸ hf
  cases hp : s.phase.inSession with
  | false =>
    rw [exec_absorb_of_closed hf hp, exec_absorb_of_closed hft (h.inSession_eq ▸ hp)]
    exact h.raiseFault _
  | true =>
    have hpt : t.phase.inSession = true := h.inSession_eq ▸ hp
    cases hl : lengthExhausted s with
    | true =>
      rw [exec_absorb_of_exhausted hf hp hl, exec_absorb_of_exhausted hft hpt (h.lengthExhausted_eq hp ▸ hl)]
      exact h.raiseFault _
    | false =>
      rw [exec_absorb_of_admitted hf hp hl, exec_absorb_of_admitted hft hpt (h.lengthExhausted_eq hp ▸ hl)]
      exact outcomeAgree_complete (h.absorbByte_eq_none_iff hp b) fun _ _ hs ht => agree_absorbByte h hp hs ht

theorem State.Agree.finalize_eq_none_iff (h : s.Agree t) (hp : s.phase.inSession = true) :
    finalize s = none ↔ finalize t = none := by
  rw [finalize, finalize, Option.map_eq_none_iff, Option.map_eq_none_iff, pad_eq_none_iff, pad_eq_none_iff,
    ← h.bufferLen hp]
  exact h.unwritten_iff hp le_rfl

theorem outcomeAgree_exec_final (h : s.Agree t) (d : Byte) (hf : s.fault = false) :
    OutcomeAgree (exec (.final d) s) (exec (.final d) t) := by
  have hft : t.fault = false := h.fault ▸ hf
  cases hp : s.phase.inSession with
  | false =>
    rw [exec_final_of_closed hf hp, exec_final_of_closed hft (h.inSession_eq ▸ hp)]
    exact h.raiseFault _
  | true =>
    rw [exec_final_of_admitted hf hp, exec_final_of_admitted hft (h.inSession_eq ▸ hp)]
    refine outcomeAgree_complete (h.finalize_eq_none_iff hp) fun _ _ hs ht => ?_
    obtain ⟨u, hu, rfl⟩ := finalize_cases hs
    obtain ⟨u', hu', rfl⟩ := finalize_cases ht
    exact h.closeSession_of_pad hp hu hu'

theorem outcomeAgree_exec (h : s.Agree t) (i : Instr) : OutcomeAgree (exec i s) (exec i t) := by
  cases hf : s.fault with
  | true =>
    rw [exec_of_fault i hf, exec_of_fault i (h.fault ▸ hf)]
    exact h
  | false =>
    have hft : t.fault = false := h.fault ▸ hf
    cases i with
    | init d =>
      rw [exec_init_of_live hf, exec_init_of_live hft]
      exact State.agree_openSession h.fault h.cause h.inputs
    | absorb b => exact outcomeAgree_exec_absorb h b hf
    | final d => exact outcomeAgree_exec_final h d hf
    | rsvd d =>
      rw [exec_rsvd_of_live hf, exec_rsvd_of_live hft]
      exact h.raiseFault _

/-- The same sample stands first in both, so both take the same kind of step. -/
theorem outcomeAgree_step (h : s.Agree t) : OutcomeAgree (step s) (step t) := by
  cases hi : s.inputs with
  | nil =>
    rw [step_of_noSample hi, step_of_noSample (h.inputs ▸ hi)]
    exact h
  | cons p rest =>
    have hit : t.inputs = p :: rest := h.inputs ▸ hi
    cases hr : p.rst with
    | true =>
      rw [step_of_rst hi hr, step_of_rst hit hr]
      exact (h.setInputs rest).resetEvent
    | false =>
      cases hv : p.cmdValid with
      | false =>
        rw [step_of_idle hi hr hv, step_of_idle hit hr hv]
        exact h.setInputs rest
      | true =>
        rw [step_of_command hi hr hv, step_of_command hit hr hv]
        exact outcomeAgree_exec (h.setInputs rest) _

/-! ### The output ports (R82) -/

theorem State.Agree.digestPort_eq (h : s.Agree t) : s.digestPort = t.digestPort := by
  rw [State.digestPort, State.digestPort, ← h.valid]
  split
  · next hvalid => rw [h.digest hvalid]
  · rfl

theorem State.Agree.ports_eq (h : s.Agree t) : s.ports = t.ports := by
  simp only [State.ports, h.phase, h.fault, h.cause, h.valid, h.digestPort_eq]

end Sys2Proof.Machine

open Sys2Proof Sys2Proof.Machine

/-- Settles O33: both states take the same sample, and each command reads only what they agree on. -/
theorem stepKeepsAgreement : Obligations.StepKeepsAgreement :=
  fun _ _ h => outcomeAgree_step h

/-- Settles O34: the ports are read off the registers that agree, by the codes of R26 and R27. -/
theorem agreementShowsOnPorts : Obligations.AgreementShowsOnPorts :=
  ⟨fun _ _ h => h.ports_eq, fun _ => ⟨rfl, rfl, rfl⟩,
    fun _ => ⟨congrArg Phase.code, congrArg Phase.code, congrArg Phase.code, congrArg Phase.code⟩,
    fun _ => ⟨congrArg FaultCause.code, congrArg FaultCause.code, congrArg FaultCause.code, congrArg FaultCause.code⟩⟩

/-- Settles O35: without a fault there is no cause (R35 a), and INIT writes the rest of what agreement asks for. -/
theorem initForgetsTheOldSession : Obligations.InitForgetsTheOldSession := by
  intro d s t hs ht hfs hft hi
  rw [exec_init_of_live hfs, exec_init_of_live hft]
  exact State.agree_openSession (hfs.trans hft.symm) ((hs.cause.1 hfs).trans (ht.cause.1 hft).symm) hi

end

section
/-! What each command leaves unchanged (spec/44_engine.md R161 to R164, spec/60_exceptions.md R197, R199), and who writes
`words` (spec/10_state.md R21, R25). -/

namespace Sys2Proof.Machine

variable {s t : State} {b d : Byte}

/-! ### A command that reads the session is refused, faults, or has its effect -/

theorem exec_absorb_cases_by_fault (h : exec (.absorb b) s = .next t) :
    (s.fault = true ∧ t = s) ∨ (s.fault = false ∧ ∃ c, t = s.raiseFault c) ∨
      (s.fault = false ∧ absorbByte b s = some t) := by
  obtain ⟨hf, ht⟩ | ⟨hf, -, ht⟩ | ⟨hf, -, -, ht⟩ | ⟨hf, -, -, ht⟩ := execAbsorb_cases h
  · exact .inl ⟨hf, ht⟩
  · exact .inr (.inl ⟨hf, _, ht⟩)
  · exact .inr (.inl ⟨hf, _, ht⟩)
  · exact .inr (.inr ⟨hf, ht⟩)

theorem exec_final_cases_by_fault (h : exec (.final d) s = .next t) :
    (s.fault = true ∧ t = s) ∨ (s.fault = false ∧ ∃ c, t = s.raiseFault c) ∨
      (s.fault = false ∧ ∃ u, pad s = some u ∧ t = u.closeSession) := by
  obtain ⟨hf, ht⟩ | ⟨hf, -, ht⟩ | ⟨hf, -, ht⟩ := execFinal_cases h
  · exact .inl ⟨hf, ht⟩
  · exact .inr (.inl ⟨hf, _, ht⟩)
  · exact .inr (.inr ⟨hf, finalize_cases ht⟩)

/-! ### What the effect of ABSORB writes (R162) -/

theorem absorbByte_buffer (h : absorbByte b s = some t) : t.buffer = s.buffer.write s.bufferLen.toNat b := by
  obtain ⟨-, rfl⟩ | ⟨hn, B, -, rfl⟩ := absorbByte_cases h
  · simp
  · simp [hn]

theorem absorbByte_keeps_cause_inputs (h : absorbByte b s = some t) : t.faultCause = s.faultCause ∧ t.inputs = s.inputs := by
  obtain ⟨-, rfl⟩ | ⟨-, B, -, rfl⟩ := absorbByte_cases h
  · simp
  · simp

/-- Without a full block nothing is compressed or counted. -/
theorem absorbByte_keeps_of_ne (h : absorbByte b s = some t) (hn : s.bufferLen ≠ 63) :
    t.words = s.words ∧ t.totalBits = s.totalBits := by
  rw [absorbByte_partial hn] at h
  cases h
  exact ⟨rfl, rfl⟩

theorem absorbByte_words (h : absorbByte b s = some t) :
    t.words = s.words ∨ ∃ B, B.length = 64 ∧ t.words = compress s.words B := by
  obtain ⟨-, rfl⟩ | ⟨-, B, hB, rfl⟩ := absorbByte_cases h
  · exact .inl (by simp)
  · exact .inr ⟨B, Memory.length_of_block hB, by simp⟩

/-! ### What PAD writes (R150 to R155) -/

/-- In one block the tail stays in the buffer (R153). -/
theorem pad_read_of_lt (h : pad s = some t) (hn : s.bufferLen.toNat ≤ 55) {a : Nat} (ha : a < s.bufferLen.toNat) :
    t.buffer.read a = s.buffer.read a := by
  obtain ⟨-, B, -, rfl⟩ | ⟨hn', -⟩ := pad_cases h
  · rw [State.setWords_buffer, State.setBuffer_buffer, read_onlyPadBuffer, if_neg (by omega), if_neg (by omega),
      if_neg (by omega)]
  · omega

theorem pad_read_of_ge (h : pad s = some t) {a : Nat} (ha : 64 ≤ a) : t.buffer.read a = s.buffer.read a := by
  obtain ⟨-, B, -, rfl⟩ | ⟨-, B1, B2, -, -, rfl⟩ := pad_cases h
  · rw [State.setWords_buffer, State.setBuffer_buffer, read_onlyPadBuffer_of_ge ha]
  · rw [State.setWords_buffer, State.setBuffer_buffer, read_secondPadBuffer_of_ge ha]

theorem pad_words (h : pad s = some t) :
    (∃ B, B.length = 64 ∧ t.words = compress s.words B) ∨
      ∃ B1 B2, B1.length = 64 ∧ B2.length = 64 ∧ t.words = compress (compress s.words B1) B2 := by
  obtain ⟨-, B, hB, rfl⟩ | ⟨-, B1, B2, hB1, hB2, rfl⟩ := pad_cases h
  · exact .inl ⟨B, Memory.length_of_block hB, by simp⟩
  · exact .inr ⟨B1, B2, Memory.length_of_block hB1, Memory.length_of_block hB2, by simp⟩

end Sys2Proof.Machine

open Sys2Proof Sys2Proof.Machine

/-- Settles O25: a refusal and fault entry keep `words`, and each effect writes what its rule says. -/
theorem wordsWriters : Obligations.WordsWriters := by
  intro i s t h
  cases i with
  | init d =>
    obtain ⟨-, rfl⟩ | ⟨-, rfl⟩ := execInit_cases h
    · exact .inl rfl
    · exact .inr (.inl ⟨d, rfl, rfl⟩)
  | absorb b =>
    obtain ⟨-, rfl⟩ | ⟨-, c, rfl⟩ | ⟨-, ht⟩ := exec_absorb_cases_by_fault h
    · exact .inl rfl
    · exact .inl rfl
    · obtain hkept | ⟨B, hB, hwords⟩ := absorbByte_words ht
      · exact .inl hkept
      · exact .inr (.inr (.inl ⟨b, B, rfl, hB, hwords⟩))
  | final d =>
    obtain ⟨-, rfl⟩ | ⟨-, c, rfl⟩ | ⟨-, u, hu, rfl⟩ := exec_final_cases_by_fault h
    · exact .inl rfl
    · exact .inl rfl
    · obtain ⟨B, hB, hwords⟩ | ⟨B1, B2, hB1, hB2, hwords⟩ := pad_words hu
      · exact .inr (.inr (.inr (.inl ⟨d, B, rfl, hB, hwords⟩)))
      · exact .inr (.inr (.inr (.inr ⟨d, B1, B2, rfl, hB1, hB2, hwords⟩)))
  | rsvd d =>
    obtain ⟨-, rfl⟩ | ⟨-, rfl⟩ := execRsvd_cases h
    · exact .inl rfl
    · exact .inl rfl

/-- Settles O27: the two commands are `openSession` and `raiseFault` on a block without a fault. -/
theorem frameOfStorelessCommands : Obligations.FrameOfStorelessCommands := by
  refine ⟨fun d s t h => ?init, fun d s t h => ?rsvd⟩
  case init =>
    obtain ⟨-, rfl⟩ | ⟨hf, rfl⟩ := execInit_cases h
    · exact ⟨fun _ => rfl, rfl, rfl, rfl, rfl, fun _ => rfl⟩
    · exact ⟨fun _ => rfl, rfl, rfl, rfl, rfl, by simp [hf]⟩
  case rsvd =>
    obtain ⟨-, rfl⟩ | ⟨hf, rfl⟩ := execRsvd_cases h
    · exact ⟨fun _ => rfl, rfl, rfl, rfl, rfl, rfl, rfl, rfl, fun _ => rfl⟩
    · exact ⟨fun _ => rfl, rfl, rfl, rfl, rfl, rfl, rfl, rfl, by simp [hf]⟩

/-- Settles O28: the effect of ABSORB writes one byte of `buffer`; a refusal and fault entry write none. -/
theorem frameOfAbsorb : Obligations.FrameOfAbsorb := by
  intro b s t h
  obtain ⟨hf, rfl⟩ | ⟨hf, c, rfl⟩ | ⟨hf, ht⟩ := exec_absorb_cases_by_fault h
  · exact ⟨fun _ _ => rfl, fun _ => ⟨rfl, rfl, rfl, rfl, rfl⟩, by simp [hf], rfl, rfl, rfl, fun _ => ⟨rfl, rfl⟩,
      fun _ => rfl, fun _ => rfl⟩
  · exact ⟨fun _ _ => rfl, fun _ => ⟨rfl, rfl, rfl, rfl, rfl⟩, by simp, rfl, rfl, rfl, fun _ => ⟨rfl, rfl⟩, by simp,
      by simp [hf]⟩
  · obtain ⟨hcause, hinputs⟩ := absorbByte_keeps_cause_inputs ht
    obtain ⟨hdigest, hvalid⟩ := absorbByte_keeps_digest ht
    have htf : t.fault = false := (absorbByte_phase_fault ht).2.trans hf
    have hbuffer := absorbByte_buffer ht
    refine ⟨fun a ha => ?other, by simp [htf], fun _ => ?stored, hdigest, hvalid, hinputs,
      fun hn => absorbByte_keeps_of_ne ht hn, fun _ => hcause, by simp [hf]⟩
    case other => rw [hbuffer, Memory.read_write_other _ _ ha]
    case stored => rw [hbuffer, Memory.read_write_same]

/-- Settles O29: PAD keeps the tail in the one-block case, and never writes past address 63. -/
theorem frameOfFinal : Obligations.FrameOfFinal := by
  intro d s t h
  obtain ⟨hf, rfl⟩ | ⟨hf, c, rfl⟩ | ⟨hf, u, hu, rfl⟩ := exec_final_cases_by_fault h
  · exact ⟨fun _ _ _ => rfl, fun _ _ => rfl, fun _ => ⟨rfl, rfl, rfl, rfl, rfl, rfl, rfl⟩, rfl, fun _ => rfl,
      fun _ => rfl⟩
  · exact ⟨fun _ _ _ => rfl, fun _ _ => rfl, fun _ => ⟨rfl, rfl, rfl, rfl, rfl, rfl, rfl⟩, rfl, by simp, by simp [hf]⟩
  · obtain ⟨hcause, hinputs⟩ := pad_keeps_cause_inputs hu
    refine ⟨fun hn a ha => ?_, fun a ha => pad_read_of_ge hu ha, by simp [pad_keeps_fault hu, hf], hinputs,
      fun _ => hcause, by simp [hf]⟩
    obtain hlt | hge := ha
    · exact pad_read_of_lt hu hn hlt
    · exact pad_read_of_ge hu hge

end

section
/-! Byte order and padding (spec/20_memory.md R51, R52, spec/41_primitives.md R110, R114, R115, R120 to R122,
spec/43_padder.md R156, R157). -/

namespace Sys2Proof.Machine

/-! ### Bytes and words (R120 to R122) -/

/-- A byte appended below is the low digit in base 256. -/
theorem toNat_append_byte {w : Nat} (x : BitVec w) (b : Byte) : (x ++ b).toNat = x.toNat * 256 + b.toNat := by
  rw [BitVec.toNat_append, ← Nat.shiftLeft_add_eq_or_of_lt b.isLt, Nat.shiftLeft_eq]

theorem toNat_be32Pack (b0 b1 b2 b3 : Byte) :
    (be32Pack b0 b1 b2 b3).toNat = b0.toNat * 2 ^ 24 + b1.toNat * 2 ^ 16 + b2.toNat * 2 ^ 8 + b3.toNat := by
  rw [be32Pack, toNat_append_byte, toNat_append_byte, toNat_append_byte]
  omega

theorem be32Unpack_be32Pack (b0 b1 b2 b3 : Byte) : be32Unpack (be32Pack b0 b1 b2 b3) = [b0, b1, b2, b3] := by
  have hbyte := extractLsb'_be32Pack ![b0, b1, b2, b3]
  have h0 : (be32Pack b0 b1 b2 b3).extractLsb' 24 8 = b0 := hbyte 0
  have h1 : (be32Pack b0 b1 b2 b3).extractLsb' 16 8 = b1 := hbyte 1
  have h2 : (be32Pack b0 b1 b2 b3).extractLsb' 8 8 = b2 := hbyte 2
  have h3 : (be32Pack b0 b1 b2 b3).extractLsb' 0 8 = b3 := hbyte 3
  rw [be32Unpack, h0, h1, h2, h3]

theorem be32Pack_bytes (w : Word) :
    be32Pack (w.extractLsb' 24 8) (w.extractLsb' 16 8) (w.extractLsb' 8 8) (w.extractLsb' 0 8) = w :=
  (be32Pack_extractLsb' w 0).trans BitVec.extractLsb'_eq_self

theorem getElem?_be64Unpack (v : Word64) {k : Nat} (hk : k < 8) :
    (be64Unpack v)[k]? = some (v.extractLsb' (56 - 8 * k) 8) := by
  interval_cases k <;> rfl

theorem Memory.read32_of_read {m : Memory} {a : Nat} {b0 b1 b2 b3 : Byte} (h0 : m.read a = some b0)
    (h1 : m.read (a + 1) = some b1) (h2 : m.read (a + 2) = some b2) (h3 : m.read (a + 3) = some b3) :
    m.read32 a = some (be32Pack b0 b1 b2 b3) := by
  simp only [Memory.read32, h0, h1, h2, h3]

/-! ### The buffer (R51, R52) -/

theorem Memory.read_of_block {m : Memory} {B : List Byte} (h : m.block = some B) {j : Nat} (hj : j < 64) :
    m.read j = B[j]? := by
  obtain ⟨-, hread⟩ := (Memory.readBytes_eq_some m 0 64 B).1 h
  rw [← hread j hj, Nat.zero_add]

/-- R51: word t of the block is the 4-byte read at 4t. -/
theorem Memory.read32_of_block {m : Memory} {B : List Byte} (h : m.block = some B) {t : Nat} (ht : t < 16) :
    m.read32 (4 * t) = (schedule B)[t]? := by
  have hlen := Memory.length_of_block h
  have hbyte : ∀ k, k < 4 → ∃ b, m.read (4 * t + k) = some b ∧ B[4 * t + k]? = some b := fun k hk =>
    have hlt : 4 * t + k < B.length := by omega
    ⟨B[4 * t + k], (Memory.read_of_block h (by omega)).trans (List.getElem?_eq_getElem hlt), List.getElem?_eq_getElem hlt⟩
  obtain ⟨b0, hm0, hB0⟩ := hbyte 0 (by decide)
  obtain ⟨b1, hm1, hB1⟩ := hbyte 1 (by decide)
  obtain ⟨b2, hm2, hB2⟩ := hbyte 2 (by decide)
  obtain ⟨b3, hm3, hB3⟩ := hbyte 3 (by decide)
  rw [getElem?_schedule_of_lt B ht, getElem?_blockWords ht hB0 hB1 hB2 hB3]
  exact Memory.read32_of_read hm0 hm1 hm2 hm3

/-- R52: the most significant byte is at the lowest index. -/
theorem Memory.read_write64_byte (m : Memory) (a : Nat) (v : Word64) {k : Nat} (hk : k < 8) :
    (m.write64 a v).read (a + k) = some (v.extractLsb' (56 - 8 * k) 8) := by
  rw [Memory.read_write64, if_pos (by omega), Nat.add_sub_cancel_left, getElem?_be64Unpack v hk]

theorem Memory.read_write64_other (m : Memory) (v : Word64) {a j : Nat} (h : j < a ∨ a + 8 ≤ j) :
    (m.write64 a v).read j = m.read j := by
  rw [Memory.read_write64, if_neg (by omega)]

theorem Memory.read32_write64_high (m : Memory) (a : Nat) (v : Word64) :
    (m.write64 a v).read32 a = some (v.extractLsb' 32 32) := by
  have hbyte := fun k (hk : k < 8) => m.read_write64_byte a v hk
  rw [← be32Pack_extractLsb' v 32]
  exact Memory.read32_of_read (hbyte 0 (by decide)) (hbyte 1 (by decide)) (hbyte 2 (by decide)) (hbyte 3 (by decide))

theorem Memory.read32_write64_low (m : Memory) (a : Nat) (v : Word64) :
    (m.write64 a v).read32 (a + 4) = some (v.extractLsb' 0 32) := by
  have hbyte := fun k (hk : k < 8) => m.read_write64_byte a v hk
  rw [← be32Pack_extractLsb' v 0]
  exact Memory.read32_of_read (hbyte 4 (by decide)) (hbyte 5 (by decide)) (hbyte 6 (by decide)) (hbyte 7 (by decide))

/-! ### Padding (R156, R157) -/

theorem length_message_padding (m : Nat) : m + (padding m).length = 64 * ((m + 8) / 64 + 1) := by
  rw [length_padding]
  omega

/-! ### Choose and majority (R114, R115) -/

theorem getLsbD_ch (x y z : Word) {i : Nat} (hi : i < 32) :
    (ch x y z).getLsbD i = if x.getLsbD i = true then y.getLsbD i else z.getLsbD i := by
  rw [ch, BitVec.getLsbD_xor, BitVec.getLsbD_and, BitVec.getLsbD_and, BitVec.getLsbD_not, decide_eq_true hi]
  cases x.getLsbD i <;> simp

theorem getLsbD_maj (x y z : Word) (i : Nat) :
    (maj x y z).getLsbD i =
      (((x.getLsbD i && y.getLsbD i) ^^ (x.getLsbD i && z.getLsbD i)) ^^ (y.getLsbD i && z.getLsbD i)) := by
  simp only [maj, BitVec.getLsbD_xor, BitVec.getLsbD_and]

theorem majority_iff (p q r : Bool) :
    (((p && q) ^^ (p && r)) ^^ (q && r)) = true ↔ 2 ≤ p.toNat + q.toNat + r.toNat := by
  revert p q r; decide

theorem ch_eq_xor_and_xor (x y z : Word) : ch x y z = z ^^^ (x &&& (y ^^^ z)) := by
  refine BitVec.eq_of_getLsbD_eq fun i hi => ?_
  rw [getLsbD_ch x y z hi]
  simp only [BitVec.getLsbD_xor, BitVec.getLsbD_and]
  cases x.getLsbD i <;> cases y.getLsbD i <;> simp

theorem ch_eq_or (x y z : Word) : ch x y z = (x &&& y) ||| (~~~x &&& z) := by
  refine BitVec.eq_of_getLsbD_eq fun i hi => ?_
  rw [getLsbD_ch x y z hi]
  simp only [BitVec.getLsbD_or, BitVec.getLsbD_and, BitVec.getLsbD_not, hi]
  cases x.getLsbD i <;> simp

theorem maj_eq_or (x y z : Word) : maj x y z = (x &&& y) ||| (z &&& (x ||| y)) := by
  refine BitVec.eq_of_getLsbD_eq fun i _ => ?_
  rw [getLsbD_maj]
  simp only [BitVec.getLsbD_or, BitVec.getLsbD_and]
  generalize x.getLsbD i = p, y.getLsbD i = q, z.getLsbD i = r
  revert p q r; decide

theorem maj_swap_left (x y z : Word) : maj x y z = maj y x z := by
  rw [maj, maj, BitVec.and_comm y x, BitVec.xor_assoc, BitVec.xor_assoc, BitVec.xor_comm (x &&& z)]

theorem maj_swap_right (x y z : Word) : maj x y z = maj x z y := by
  rw [maj, maj, BitVec.and_comm z y, BitVec.xor_comm (x &&& z)]

end Sys2Proof.Machine

open Sys2Proof Sys2Proof.Machine

/-- Settles O40, with R157's z; the rest is arithmetic mod 64. -/
theorem paddingFillsWholeBlocks : Obligations.PaddingFillsWholeBlocks := by
  intro m
  exact ⟨(119 - m % 64) % 64, by omega, by omega, rfl, by omega, fun _ _ => by omega, length_message_padding m⟩

/-- Settles O41: a word is the base-256 number of its bytes, and its bytes are its eight-bit pieces. -/
theorem bytePacking : Obligations.BytePacking :=
  ⟨toNat_be32Pack, be32Unpack_be32Pack, fun _ => rfl, be32Pack_bytes,
    fun v => ⟨length_be64Unpack v, fun _ hk => getElem?_be64Unpack v hk⟩,
    fun _ _ _ _ _ _ h0 h1 h2 h3 => Memory.read32_of_read h0 h1 h2 h3, fun _ _ _ => rfl⟩

/-- Settles O42: the block and the suffix byte by byte, then four bytes at a time. -/
theorem bufferIsBigEndian : Obligations.BufferIsBigEndian :=
  ⟨fun _ _ h _ ht => Memory.read32_of_block h ht,
    fun _ _ _ _ _ _ h0 h1 h2 h3 => ⟨_, Memory.read32_of_read h0 h1 h2 h3, toNat_be32Pack _ _ _ _⟩,
    fun m L => ⟨fun _ hk => m.read_write64_byte 56 L hk, fun _ ha => m.read_write64_other L ha,
      m.read32_write64_high 56 L, m.read32_write64_low 56 L⟩⟩

/-- Settles O49, bit by bit. -/
theorem chooseAndMajority : Obligations.ChooseAndMajority := by
  refine fun x y z => ⟨fun i hi => getLsbD_ch x y z hi, ch_eq_xor_and_xor x y z, ch_eq_or x y z, fun i _ => ?majority,
    maj_eq_or x y z, maj_swap_left x y z, maj_swap_right x y z⟩
  case majority => rw [getLsbD_maj, majority_iff]

/-- Settles O46: `add32` is the addition of bit vectors. -/
theorem add32IsModular : Obligations.Add32IsModular :=
  fun x y z => ⟨BitVec.toNat_add x y, BitVec.add_assoc x y z, BitVec.add_comm x y⟩

/-- Settles O1: the control registers by definition; the data registers hold no value in Uninitialized. -/
theorem resetValues : Obligations.ResetValues :=
  ⟨rfl, rfl, rfl, rfl, State.words?_of_uninitialized rfl, State.bufferLen?_of_uninitialized rfl,
    State.totalBits?_of_uninitialized rfl, fun _ => rfl, State.digestPort_of_invalid rfl⟩

end

section
/-! Whole sessions (spec/44_engine.md R163, R165): what a session has absorbed, how FINAL completes the message with its
padding, and the same commands taken from the port. -/

namespace Sys2Proof.Machine

/-! ### The blocks of a message (R157, R163) -/

theorem takeBlocks_add_append {k : Nat} {A : List Byte} (hA : A.length = 64 * k) (j : Nat) (B : List Byte) :
    takeBlocks (k + j) (A ++ B) = takeBlocks k A ++ takeBlocks j B := by
  induction k generalizing A with
  | zero =>
    obtain rfl := List.eq_nil_of_length_eq_zero hA
    simp [takeBlocks]
  | succ k ih =>
    have hle : 64 ≤ A.length := by omega
    have hdrop : (A.drop 64).length = 64 * k := by rw [List.length_drop]; omega
    rw [Nat.succ_add, takeBlocks, takeBlocks, List.take_append_of_le_length hle, List.drop_append_of_le_length hle,
      ih hdrop, List.cons_append]

theorem fullBlocks_append {A : List Byte} (hA : A.length % 64 = 0) (B : List Byte) :
    fullBlocks (A ++ B) = fullBlocks A ++ fullBlocks B := by
  have hcount : (A ++ B).length / 64 = A.length / 64 + B.length / 64 := by rw [List.length_append]; omega
  rw [fullBlocks, hcount, takeBlocks_add_append (by omega), fullBlocks, fullBlocks]

theorem fullBlocks_of_length_lt {T : List Byte} (hT : T.length < 64) : fullBlocks T = [] := by
  rw [fullBlocks, Nat.div_eq_of_lt hT, takeBlocks]

theorem fullBlocks_of_length_eq {B : List Byte} (hB : B.length = 64) : fullBlocks B = [B] := by
  rw [fullBlocks, hB, show 64 / 64 = 0 + 1 from rfl, takeBlocks, takeBlocks, List.take_of_length_le hB.le]

/-- One block more is one COMPRESS more. -/
theorem foldBlocks_append_block {A B : List Byte} (hA : A.length % 64 = 0) (hB : B.length = 64) :
    foldBlocks (fullBlocks (A ++ B)) = compress (foldBlocks (fullBlocks A)) B := by
  rw [fullBlocks_append hA, fullBlocks_of_length_eq hB, foldBlocks, List.foldl_append]
  rfl

/-! ### The padded message ends with the blocks PAD builds (R153, R154, R157) -/

theorem padding_eq {m z : Nat} (hz : (119 - m % 64) % 64 = z) :
    padding m = [0x80] ++ List.replicate z 0 ++ be64Unpack (BitVec.ofNat 64 (8 * m)) := by
  rw [← hz]
  rfl

section
variable {A T : List Byte} (hA : A.length % 64 = 0)
include hA

theorem hashWords_of_tail_le (hT : T.length ≤ 55) :
    hashWords (A ++ T) = compress (foldBlocks (fullBlocks A))
      (T ++ [0x80] ++ List.replicate (55 - T.length) 0 ++ be64Unpack (BitVec.ofNat 64 (8 * (A ++ T).length))) := by
  have hz : (119 - (A ++ T).length % 64) % 64 = 55 - T.length := by rw [List.length_append]; omega
  rw [hashWords, padding_eq hz, ← foldBlocks_append_block hA]
  · simp only [List.append_assoc]
  · simp [Config.lenBytes]; omega

theorem hashWords_of_lt_tail (hT : 55 < T.length) (hlt : T.length < 64) :
    hashWords (A ++ T) = compress
      (compress (foldBlocks (fullBlocks A)) (T ++ [0x80] ++ List.replicate (63 - T.length) 0))
      (List.replicate 56 0 ++ be64Unpack (BitVec.ofNat 64 (8 * (A ++ T).length))) := by
  have hz : (119 - (A ++ T).length % 64) % 64 = 63 - T.length + 56 := by rw [List.length_append]; omega
  have hfirst : (T ++ [0x80] ++ List.replicate (63 - T.length) 0).length = 64 := by simp; omega
  rw [hashWords, padding_eq hz, ← foldBlocks_append_block hA hfirst,
    ← foldBlocks_append_block (by rw [List.length_append]; omega) (length_secondPadBlock _), List.replicate_add]
  simp only [List.append_assoc]

end

/-! ### Running commands (R60) -/

theorem execAll_cons {i : Instr} {s t : State} (h : exec i s = .next t) (is : List Instr) :
    execAll (i :: is) s = execAll is t := by
  rw [execAll, h]

theorem execAll_append {is : List Instr} {s t : State} (h : execAll is s = .next t) (js : List Instr) :
    execAll (is ++ js) s = execAll js t := by
  induction is generalizing s with
  | nil =>
    cases h
    rfl
  | cons i is ih =>
    cases hi : exec i s with
    | next u =>
      rw [execAll_cons hi] at h
      rw [List.cons_append, execAll_cons hi, ih h]
    | fault r => simp [execAll, hi] at h
    | refused r => simp [execAll, hi] at h

/-! ### What a session has absorbed (R163) -/

/-- The session opened from `s₀` has absorbed the whole blocks `A`, compressed into `words`, and the tail `T`, which stands
in `buffer`. -/
structure State.Absorbed (s₀ s : State) (A T : List Byte) : Prop where
  whole : A.length % 64 = 0
  tailLength : T.length = s.bufferLen.toNat
  totalBits : s.totalBits.toNat = 8 * A.length
  tail : s.buffer.Holds T
  words : s.words = foldBlocks (fullBlocks A)
  phase : s.phase = if A ++ T = [] then .initialized else .accepting
  digestValid : s.digestValid = false
  fault : s.fault = s₀.fault
  cause : s.faultCause = s₀.faultCause
  inputs : s.inputs = s₀.inputs

theorem State.absorbed_openSession (s₀ : State) : s₀.Absorbed s₀.openSession [] [] where
  whole := rfl
  tailLength := rfl
  totalBits := rfl
  tail := fun _ hj => absurd hj (Nat.not_lt_zero _)
  words := rfl
  phase := rfl
  digestValid := rfl
  fault := rfl
  cause := rfl
  inputs := rfl

section
variable {s₀ s : State} {A T : List Byte} (h : s₀.Absorbed s A T)
include h

theorem State.Absorbed.tailLength_lt : T.length < 64 := h.tailLength ▸ s.bufferLen.isLt

theorem State.Absorbed.inSession : s.phase.inSession = true := by
  rw [h.phase]
  split <;> rfl

theorem State.Absorbed.tailLength_of_full (hn : s.bufferLen = 63) : T.length = 63 := by
  rw [h.tailLength, hn]
  rfl

/-- Below 2^61 - 1 bytes there is room for one more (R194). -/
theorem State.Absorbed.room (hlt : A.length + T.length < 2 ^ 61 - 1) : lengthExhausted s = false := by
  refine lengthExhausted_eq_false_iff.2 fun hn hbound => ?_
  have hbits := h.totalBits
  have hlen := h.tailLength_of_full hn
  rw [hbound, BitVec.toNat_ofNat] at hbits
  omega

theorem State.Absorbed.nextByte (hn : s.bufferLen ≠ 63) (b : Byte) :
    s₀.Absorbed (s.setBuffer (s.buffer.write s.bufferLen.toNat b)).nextByte A (T ++ [b]) where
  whole := h.whole
  tailLength := by
    rw [List.length_append, h.tailLength, State.nextByte_bufferLen, State.setBuffer_bufferLen, toNat_succ_of_ne hn]
    rfl
  totalBits := h.totalBits
  tail := h.tailLength ▸ h.tail.write b
  words := h.words
  phase := by simp
  digestValid := h.digestValid
  fault := h.fault
  cause := h.cause
  inputs := h.inputs

theorem State.Absorbed.nextBlock (hn : s.bufferLen = 63) (hl : lengthExhausted s = false) (m : Memory) (b : Byte) :
    s₀.Absorbed ((s.setBuffer m).setWords (compress s.words (T ++ [b]))).nextBlock (A ++ (T ++ [b])) [] := by
  have hwhole := h.whole
  have hblock : (T ++ [b]).length = 64 := by simp [h.tailLength_of_full hn]
  have hbits : (add64 s.totalBits 512).toNat = s.totalBits.toNat + 512 :=
    toNat_add64_blockBits (by rw [h.totalBits]; omega) (lengthExhausted_eq_false_iff.1 hl hn)
  refine ⟨?whole, by simp, ?bits, fun _ hj => absurd hj (Nat.not_lt_zero _), ?words, by simp, by simp [h.digestValid],
    by simp [h.fault], by simp [h.cause], by simp [h.inputs]⟩
  case whole => rw [List.length_append, hblock]; omega
  case bits => rw [State.nextBlock_totalBits, State.setWords_totalBits, State.setBuffer_totalBits, hbits, h.totalBits,
    List.length_append, hblock, Nat.mul_add]
  case words => rw [State.nextBlock_words, State.setWords_words, h.words, foldBlocks_append_block h.whole hblock]

/-- ABSORB takes the byte into the tail, or completes a block with it. -/
theorem State.Absorbed.exec_absorb (hf : s₀.fault = false) (hlt : A.length + T.length < 2 ^ 61 - 1) (b : Byte) :
    ∃ t A' T', exec (.absorb b) s = .next t ∧ A' ++ T' = A ++ T ++ [b] ∧ s₀.Absorbed t A' T' := by
  have hfs := h.fault.trans hf
  by_cases hn : s.bufferLen = 63
  · have hl := h.room hlt
    have hblock := h.tail.block_write (h.tailLength_of_full hn) b
    exact ⟨_, _, _, exec_absorb_full hfs h.inSession hl hn hblock, by simp, h.nextBlock hn hl _ b⟩
  · exact ⟨_, _, _, exec_absorb_partial hfs h.inSession hn, by simp, h.nextByte hn b⟩

end

theorem update_append (a b : List Byte) : update (a ++ b) = update a ++ update b := List.map_append

/-- R163, by induction on the bytes, the last one last. -/
theorem exists_execAll_update {s₀ : State} (hf : s₀.fault = false) (M : List Byte) (hM : M.length ≤ 2 ^ 61 - 1) :
    ∃ t A T, execAll (update M) s₀.openSession = .next t ∧ A ++ T = M ∧ s₀.Absorbed t A T := by
  induction M using List.reverseRecOn with
  | nil => exact ⟨_, [], [], rfl, rfl, s₀.absorbed_openSession⟩
  | append_singleton M b ih =>
    rw [List.length_append, List.length_singleton] at hM
    obtain ⟨s, A, T, hexec, rfl, hs⟩ := ih (by omega)
    rw [List.length_append] at hM
    obtain ⟨t, A', T', hb, hbytes, ht⟩ := hs.exec_absorb hf (by omega) b
    refine ⟨t, A', T', ?_, hbytes, ht⟩
    rw [update_append, execAll_append hexec]
    exact execAll_cons hb []

/-! ### FINAL of what has been absorbed (R164, R165) -/

/-- What a session over M leaves of the state `s` it began in; `m` is what is left in `buffer`. -/
def State.afterSession (s : State) (M : List Byte) (m : Memory) : State :=
  { s with words := hashWords M, buffer := m, bufferLen := 0, totalBits := BitVec.ofNat 64 (8 * M.length),
           digest := sha256 M, digestValid := true, phase := .finalized }

section
variable {s₀ s : State} {A T : List Byte} (h : s₀.Absorbed s A T)
include h

/-- L counts the bits of the whole message. -/
theorem State.Absorbed.messageBits_eq :
    s.totalBits + BitVec.ofNat 64 (8 * s.bufferLen.toNat) = BitVec.ofNat 64 (8 * (A ++ T).length) := by
  have hbits : s.totalBits = BitVec.ofNat 64 (8 * A.length) := by rw [← h.totalBits, BitVec.ofNat_toNat, BitVec.setWidth_eq]
  rw [hbits, ← h.tailLength, ← BitVec.ofNat_add, List.length_append, Nat.mul_add]

/-- The writes of FINAL leave of the old state only what the session has not touched. -/
theorem State.Absorbed.afterSession_eq (m : Memory) :
    { s with words := hashWords (A ++ T), buffer := m, bufferLen := 0, totalBits := BitVec.ofNat 64 (8 * (A ++ T).length),
             digest := serialize (hashWords (A ++ T)), digestValid := true, phase := .finalized } =
      s₀.afterSession (A ++ T) m := by
  rw [State.afterSession, sha256, ← h.fault, ← h.cause, ← h.inputs]

theorem State.Absorbed.exec_final (hf : s₀.fault = false) (d : Byte) :
    ∃ m, exec (.final d) s = .next (s₀.afterSession (A ++ T) m) := by
  have hfs := h.fault.trans hf
  have htail := (Memory.holds_iff h.tailLength).1 h.tail
  by_cases hn : s.bufferLen.toNat ≤ 55
  · obtain ⟨m, -, -, hexec⟩ := finalOneBlock d s T hfs h.inSession hn h.tailLength htail
    rw [h.messageBits_eq, h.words, ← h.tailLength, ← hashWords_of_tail_le h.whole (h.tailLength ▸ hn)] at hexec
    exact ⟨m, hexec.trans (congrArg _ (h.afterSession_eq m))⟩
  · obtain ⟨m, -, -, hexec⟩ := finalTwoBlocks d s T hfs h.inSession (by omega) h.tailLength htail
    rw [h.messageBits_eq, h.words, ← h.tailLength,
      ← hashWords_of_lt_tail h.whole (h.tailLength ▸ Nat.lt_of_not_le hn) h.tailLength_lt] at hexec
    exact ⟨m, hexec.trans (congrArg _ (h.afterSession_eq m))⟩

end

/-- R165: a session ends with the digest of its message. -/
theorem exists_execAll_session {s : State} (hf : s.fault = false) (M : List Byte) (hM : M.length ≤ 2 ^ 61 - 1)
    (d d' : Byte) : ∃ m, execAll (.init d :: (update M ++ [.final d'])) s = .next (s.afterSession M m) := by
  obtain ⟨t, A, T, hupdate, rfl, ht⟩ := exists_execAll_update hf M hM
  obtain ⟨m, hfinal⟩ := ht.exec_final hf d'
  refine ⟨m, ?_⟩
  rw [execAll_cons (exec_init_of_live hf), execAll_append hupdate]
  exact execAll_cons hfinal []

/-! ### The same commands on the port (R82) -/

section
variable {s t : State} (ps : List PortInput)

theorem absorbByte_setInputs {b : Byte} (h : absorbByte b s = some t) :
    absorbByte b (s.setInputs ps) = some (t.setInputs ps) := by
  obtain ⟨hn, rfl⟩ | ⟨hn, B, hB, rfl⟩ := absorbByte_cases h
  · exact absorbByte_partial (s := s.setInputs ps) hn
  · exact absorbByte_full (s := s.setInputs ps) hn hB

@[simp] theorem State.setTotalBits_setInputs (L : Word64) :
    (s.setInputs ps).setTotalBits L = (s.setTotalBits L).setInputs ps := rfl

@[simp] theorem State.setBuffer_setInputs (m : Memory) :
    (s.setInputs ps).setBuffer m = (s.setBuffer m).setInputs ps := rfl

@[simp] theorem State.setWords_setInputs (w : Vector Word 8) :
    (s.setInputs ps).setWords w = (s.setWords w).setInputs ps := rfl

@[simp] theorem messageBits_setInputs : messageBits (s.setInputs ps) = messageBits s := rfl

@[simp] theorem onlyPadBuffer_setInputs : onlyPadBuffer (s.setInputs ps) = onlyPadBuffer s := rfl

@[simp] theorem secondPadBuffer_setInputs : secondPadBuffer (s.setInputs ps) = secondPadBuffer s := rfl

theorem pad_setInputs (h : pad s = some t) : pad (s.setInputs ps) = some (t.setInputs ps) := by
  obtain ⟨hn, B, hB, rfl⟩ | ⟨hn, B1, B2, hB1, hB2, rfl⟩ := pad_cases h
  · simpa using pad_one (s := s.setInputs ps) hn hB
  · simpa using pad_two (s := s.setInputs ps) hn hB1 hB2

/-- No command reads the samples to come, and none changes them. -/
theorem exec_setInputs {i : Instr} (h : exec i s = .next t) : exec i (s.setInputs ps) = .next (t.setInputs ps) := by
  cases i with
  | init d =>
    obtain ⟨hf, rfl⟩ | ⟨hf, rfl⟩ := execInit_cases h
    · exact exec_of_fault _ hf
    · exact exec_init_of_live (s := s.setInputs ps) hf
  | absorb b =>
    obtain ⟨hf, rfl⟩ | ⟨hf, hp, rfl⟩ | ⟨hf, hp, hl, rfl⟩ | ⟨hf, hp, hl, ht⟩ := execAbsorb_cases h
    · exact exec_of_fault _ hf
    · exact exec_absorb_of_closed (s := s.setInputs ps) hf hp
    · exact exec_absorb_of_exhausted (s := s.setInputs ps) hf hp hl
    · rw [exec_absorb_of_admitted (s := s.setInputs ps) hf hp hl, absorbByte_setInputs ps ht, complete]
  | final d =>
    obtain ⟨hf, rfl⟩ | ⟨hf, hp, rfl⟩ | ⟨hf, hp, ht⟩ := execFinal_cases h
    · exact exec_of_fault _ hf
    · exact exec_final_of_closed (s := s.setInputs ps) hf hp
    · obtain ⟨u, hu, rfl⟩ := finalize_cases ht
      rw [exec_final_of_admitted (s := s.setInputs ps) hf hp, finalize, pad_setInputs ps hu]
      rfl
  | rsvd d =>
    obtain ⟨hf, rfl⟩ | ⟨hf, rfl⟩ := execRsvd_cases h
    · exact exec_of_fault _ hf
    · exact exec_rsvd_of_live (s := s.setInputs ps) hf

theorem exec_keeps_inputs {i : Instr} (h : exec i s = .next t) : t.inputs = s.inputs := by
  have hsame : exec i s = .next (t.setInputs s.inputs) := exec_setInputs s.inputs h
  have heq : t = t.setInputs s.inputs := Host.Outcome.next.inj (h.symm.trans hsame)
  rw [heq, State.setInputs_inputs]

end

/-- The sample in which the host presents the word of a command. -/
def commandSample (i : Instr) : PortInput := PortInput.ofWord (encode i)

theorem step_of_sample {s : State} {i : Instr} {ps : List PortInput} (hi : s.inputs = commandSample i :: ps) :
    step s = exec i (s.setInputs ps) := by
  rw [step_of_ofWord hi, decode_encode]

/-- The machine takes commands from the port as they run one after the other. -/
theorem core_run_of_execAll {is : List Instr} {s t : State} {rest : List PortInput}
    (hi : s.inputs = is.map commandSample ++ rest) (h : execAll is (s.setInputs rest) = .next t) :
    Host.Core.run core is.length s = .next t := by
  induction is generalizing s with
  | nil =>
    have hself : s.setInputs rest = s := by rw [← show s.inputs = rest from hi, State.setInputs_self]
    rw [hself] at h
    exact h
  | cons i is ih =>
    cases hexec : exec i (s.setInputs rest) with
    | fault r => simp [execAll, hexec] at h
    | refused r => simp [execAll, hexec] at h
    | next u =>
      rw [execAll_cons hexec] at h
      have hstep : step s = .next (u.setInputs (is.map commandSample ++ rest)) := by
        rw [step_of_sample hi, ← State.setInputs_setInputs s rest]
        exact exec_setInputs _ hexec
      have hrest : (u.setInputs (is.map commandSample ++ rest)).setInputs rest = u := by
        rw [State.setInputs_setInputs, ← show u.inputs = rest from exec_keeps_inputs hexec, State.setInputs_self]
      rw [List.length_cons, core_run_succ hstep]
      exact ih (State.setInputs_inputs _ _) (hrest.symm ▸ h)

theorem samples_hash (d : ScriptData) :
    (ScriptLine.hash d).samples = (Instr.init 0 :: (update d.bytes ++ [.final 0])).map commandSample := by
  simp only [ScriptLine.samples, updateWords_eq_map_encode, update, List.map_cons, List.map_append, List.map_map,
    List.map_nil]
  rfl

end Sys2Proof.Machine

open Sys2Proof Sys2Proof.Machine

/-- Settles O36: the session has absorbed whole blocks and a tail below 64 bytes, which fixes both lengths. -/
theorem updateAccumulates : Obligations.UpdateAccumulates := by
  intro M s hM hs hf hphase
  obtain ⟨t, A, T, hexec, rfl, ht⟩ := exists_execAll_update hf M hM
  have hwhole := ht.whole
  have hlt := ht.tailLength_lt
  have hmod : (A ++ T).length % 64 = T.length := by rw [List.length_append]; omega
  have hdiv : 64 * ((A ++ T).length / 64) = A.length := by rw [List.length_append]; omega
  rw [hs.openSession_eq_self hphase] at hexec
  refine ⟨t, hexec, ht.fault.trans hf, by rw [hmod, ht.tailLength], ?bits, fun j hj => ?tail, ?words, ht.phase,
    ht.digestValid, ht.inputs⟩
  case bits =>
    have hbits := ht.totalBits
    omega
  case tail =>
    rw [hmod] at hj
    rw [hdiv, List.getElem?_append_right (Nat.le_add_right _ _), Nat.add_sub_cancel_left, ht.tail j hj]
  case words => rw [ht.words, fullBlocks_append hwhole, fullBlocks_of_length_lt hlt, List.append_nil]

/-- Settles O38: the message is below 2^64 bits, so `totalBits` is its exact length. -/
theorem sessionComputesDigest : Obligations.SessionComputesDigest := by
  intro M d d' s hM hf
  obtain ⟨m, hexec⟩ := exists_execAll_session hf M hM d d'
  have hbits : (BitVec.ofNat 64 (8 * M.length)).toNat = 8 * M.length := by
    rw [BitVec.toNat_ofNat, Nat.mod_eq_of_lt (by omega)]
  exact ⟨s.afterSession M m, hexec, rfl, rfl, rfl, hf, rfl, hbits, rfl, rfl⟩

/-- Settles O37: two UPDATEs are the commands of one. -/
theorem splitInvariance : Obligations.SplitInvariance := by
  intro a b d d' s hlen hf
  obtain ⟨m, hexec⟩ := exists_execAll_session hf (a ++ b) (by rwa [List.length_append]) d d'
  refine ⟨s.afterSession (a ++ b) m, ?_, hexec, rfl, rfl, rfl, hf⟩
  rwa [← List.append_assoc, ← update_append]

/-- Settles O39: the samples of HASH M are those of the session's commands, taken one at each step. -/
theorem portSessionShowsDigest : Obligations.PortSessionShowsDigest := by
  intro M s rest hM hf hi
  rw [samples_hash] at hi
  obtain ⟨m, hexec⟩ := exists_execAll_session (s := s.setInputs rest) hf M hM 0 0
  have hrun := core_run_of_execAll hi hexec
  have hsteps : (Instr.init 0 :: (update M ++ [.final 0])).length = M.length + 2 := by simp [update]
  refine ⟨(s.setInputs rest).afterSession M m, hsteps ▸ hrun, rfl, ?ports⟩
  case ports => rw [← hf]; rfl

end
